-- ==== Sys2Proof/Word.lean ====
section
/-! DEFINITION. The word types of the block: every width that a rule of the spec names.
Bits are numbered from 0 at the least significant bit (00_scope.md R8); all integers are unsigned. -/

namespace Sys2Proof

/-- A 32-bit word: a register, an operand, a response datum, a microsecond count (10_state.md R21, R26, R33). -/
abbrev Word := BitVec 32

/-- One byte of the receive buffer or of the transport (20_memory.md R62). -/
abbrev Byte := BitVec 8

/-- A cursor of the receive buffer: 6 bits, holding 0..32 (10_state.md R30). -/
abbrev Cursor := BitVec 6

/-- A command word `cmd[35:0]` (30_encoding.md R80). -/
abbrev CmdWord := BitVec 36

/-- A response word `rsp[33:0]` (30_encoding.md R87). -/
abbrev RspWord := BitVec 34

end Sys2Proof
end

