-- ==== Sys2Proof/Config.lean ====
section
/-! DEFINITION. What is fixed for the hardware (the parameters of 00_scope.md R7, each in one place so that a
correction is one edit, 93_implementation_defined.md U9), and the FREE VALUES: constants without a body for what
the spec leaves open. The two parameters that R7 calls `OPEN` (`SPR`, `T_PACE_US`) are arguments of the model:
they are fields of `Machine.Params`, which State carries and no command writes. -/

namespace Sys2Proof.Config

/-- `CAP`: the capacity of the receive buffer in bytes (R7, R30). -/
def cap : Nat := 32

/-- `SNAP`, 0.25 rev/s as a binary32 pattern (R7, R157). -/
def snap : Word := 0x3E800000#32

/-- `RAMP_DIV`, 5 as a binary32 pattern (R7, R157). -/
def rampDiv : Word := 0x40A00000#32

/-- `V_MIN`, 0.5 rev/s as a binary32 pattern (R7, R156). -/
def vMin : Word := 0x3F000000#32

/-- `US_PER_S`, 1000000 as a binary32 pattern (R7, R158). -/
def usPerS : Word := 0x49742400#32

/-- `RPS_MAX`, 65536.0 as a binary32 pattern: the largest magnitude `SETTGT` accepts (R7, R155). -/
def rpsMax : Word := 0x47800000#32

/-- `EN_ACTIVE_LEVEL` = 0: enabled drives the enable pin low (R7, R25). -/
def enActiveLevel : Bool := false

/-- `DIR_CW_LEVEL` = 1: clockwise drives the direction pin high (R7, R25, 90_conflicts.md C7). -/
def dirCwLevel : Bool := true

/-- `STEP_ACTIVE_LEVEL` = 1: a pulse is high, then low (R7, R25). -/
def stepActiveLevel : Bool := true

/-- `STEP_DEFAULT_US` and `MOVE_DEFAULT_N`: defaults of the assembler, not of the hardware (R7, R98). -/
def stepDefaultUs : Nat := 500

@[inherit_doc stepDefaultUs] def moveDefaultN : Nat := 1

/-- The defaults of the two open parameters (R7): `SPR` = 200 and `T_PACE_US` = 2000. -/
def sprDefault : BitVec 16 := 200#16

@[inherit_doc sprDefault] def tPaceDefault : Word := 2000#32

/-- FREE VALUE. By how much `now` advances in the environment's `k`-th move after its script is used up, and by
how much the wait that this move ends overshoots its bound (R33, R136, U2). DESIGN CHOICE of form, log entry 2. -/
opaque freeAdvance : Nat → Nat

/-- FREE VALUE. The bytes that arrive in the environment's `k`-th move after its script is used up
(R33, R67, U6). DESIGN CHOICE of form, log entry 2. -/
opaque freeArrivals : Nat → List Byte

/-- FREE VALUE. What the buffer cell at an index reads as when nothing has written it since reset
(R30, R35, U1); the first argument is the count of environment moves so far. Log entry 4. -/
opaque freeCell : Nat → Nat → Byte

/-- FREE VALUE. The value of a pattern that is not finite, in units of 2^-149: R151 gives it none.
No such pattern enters `CUR` or `TGT` (R161). Log entry 7. -/
opaque freeValue : Word → Int

/-- FREE VALUE. The rounding of a quotient outside the domain of R152 (magnitude 2^127 or more, or a division
by zero): the spec states no result. Never reached in the legal range (R161). Log entry 7. -/
opaque freeRound : Int → Nat → Word

end Sys2Proof.Config
end

