-- ==== Sys2Proof/Syntax.lean ====
section
/-! DEFINITION. The commands of the block as syntax: one constructor for every row of spec/opcode_table.json, the
nine assigned opcodes and the seven reserved ones (30_encoding.md R83, R84). Operand bits that a format ignores
are no part of the syntax (R85); the pseudo-instructions of R98 are other spellings of these. -/

namespace Sys2Proof

/-- The direction operand of `SETDIR`: "Clockwise | CounterClockwise" (30_encoding.md R82, 41_pulse.md R133). -/
inductive Direction where
  | clockwise
  | counterClockwise
deriving DecidableEq, Repr

/-- A command. A `U` operand is an unsigned count or duration and an `R` operand an index, so both are natural
numbers, and `Instr.wf` bounds them by their field; the `F` operand is a binary32 pattern (R81, R82). -/
inductive Instr where
  /-- opcode 0x0, reserved (R84, R182) -/
  | reserved0
  /-- `SETEN b` (R131) -/
  | setEn (enabled : Bool)
  /-- `GETEN` (R132) -/
  | getEn
  /-- `SETDIR d` (R133) -/
  | setDir (d : Direction)
  /-- `SETTGT f` (R155) -/
  | setTgt (p : Word)
  /-- `MOVE n` (R156) -/
  | move (n : Nat)
  /-- `STEP u` (R134) -/
  | step (u : Nat)
  /-- `RDREG idx` (R180) -/
  | rdReg (idx : Nat)
  /-- `HASNEXT` (R111) -/
  | hasNext
  /-- `GETNEXT` (R112) -/
  | getNext
  /-- opcode 0xA, reserved (R84, R182) -/
  | reservedA
  /-- opcode 0xB, reserved (R84, R182) -/
  | reservedB
  /-- opcode 0xC, reserved (R84, R182) -/
  | reservedC
  /-- opcode 0xD, reserved (R84, R182) -/
  | reservedD
  /-- opcode 0xE, reserved (R84, R182) -/
  | reservedE
  /-- opcode 0xF, reserved (R84, R182) -/
  | reservedF
deriving DecidableEq, Repr

/-- The seven reserved opcodes (R84). -/
def Instr.isReserved : Instr → Bool
  | .reserved0 | .reservedA | .reservedB | .reservedC | .reservedD | .reservedE | .reservedF => true
  | .setEn _ | .getEn | .setDir _ | .setTgt _ | .move _ | .step _ | .rdReg _ | .hasNext | .getNext => false

end Sys2Proof
end

