-- ==== Sys2Proof/WellFormed.lean ====
section
/-! DEFINITION. When a command as syntax is one that a 36-bit word can hold: each operand fits its field
(30_encoding.md R81). An operand that the block refuses (`SETTGT` of an infinity, `RDREG 9`) is well formed: R85
calls it "well formed but refused". -/

namespace Sys2Proof

/-- A `U` operand is an unsigned 32-bit integer, "value 0..4294967295" (R81). -/
def fitsU (u : Nat) : Bool := u < 2 ^ 32

/-- An `R` operand is the 4-bit field `arg[3:0]` (R81). -/
def fitsR (idx : Nat) : Bool := idx < 16

/-- Every operand fits its field. -/
def Instr.wf : Instr → Bool
  | .move n => fitsU n
  | .step u => fitsU u
  | .rdReg idx => fitsR idx
  | .reserved0 | .setEn _ | .getEn | .setDir _ | .setTgt _ | .hasNext | .getNext => true
  | .reservedA | .reservedB | .reservedC | .reservedD | .reservedE | .reservedF => true

end Sys2Proof
end

