-- ==== Sys2Proof/Decode.lean ====
section
/-! DEFINITION. Decoding of a command word and, after it, the encoder, both from the tables of 30_encoding.md
(R80 to R85). Every 36-bit word is a command (R84: a reserved opcode is accepted like any other), so decoding
refuses, by name, only a number that is no 36-bit word. -/

namespace Sys2Proof

/-- `op = cmd[35:32]` (R80). -/
def opField (w : CmdWord) : BitVec 4 := w.extractLsb' 32 4

/-- `arg = cmd[31:0]` (R80). -/
def argField (w : CmdWord) : Word := w.extractLsb' 0 32

/-- Format `B`: `arg[0]`; `arg[31:1]` are ignored (R81). -/
def operandB (arg : Word) : Bool := arg.getLsbD 0

/-- Format `U`: the whole of `arg` as an unsigned integer (R81, R82). -/
def operandU (arg : Word) : Nat := arg.toNat

/-- Format `R`: `arg[3:0]`; `arg[31:4]` are ignored (R81). -/
def operandR (arg : Word) : Nat := (arg.extractLsb' 0 4).toNat

/-- `SETDIR`'s numbering: 1 is Clockwise, 0 is CounterClockwise (R82). -/
def directionOf (b : Bool) : Direction := if b then .clockwise else .counterClockwise

/-- The opcode map (R83, R84), read on the two fields of a command word. -/
def decodeFields (op : Fin 16) (arg : Word) : Instr :=
  match op with
  | 0x0 => .reserved0
  | 0x1 => .setEn (operandB arg)
  | 0x2 => .getEn
  | 0x3 => .setDir (directionOf (operandB arg))
  | 0x4 => .setTgt arg
  | 0x5 => .move (operandU arg)
  | 0x6 => .step (operandU arg)
  | 0x7 => .rdReg (operandR arg)
  | 0x8 => .hasNext
  | 0x9 => .getNext
  | 0xA => .reservedA
  | 0xB => .reservedB
  | 0xC => .reservedC
  | 0xD => .reservedD
  | 0xE => .reservedE
  | 0xF => .reservedF
  | ⟨n + 16, h⟩ => absurd h (by omega)

/-- Decoding of a command word: total, with no mode and no length rule (R80). -/
def decode (w : CmdWord) : Instr := decodeFields (opField w).toFin (argField w)

/-- Why a number is not read as a command. -/
inductive DecodeRefusal where
  /-- the number has a bit above bit 35: no command word is wider than 36 bits (R80). Raised by `decodeNat` only;
  safe, since the `cmd` port has no such bit. -/
  | widerThanCommandWord
deriving DecidableEq, Repr

/-- Decoding of any number: a 36-bit word decodes, a wider number is refused by name. -/
def decodeNat (w : Nat) : Except DecodeRefusal Instr :=
  if w < 2 ^ 36 then .ok (decode (BitVec.ofNat 36 w)) else .error .widerThanCommandWord

/-- The instruction the decoder reads from the bits `w` of an opcode-table row. A row is the whole 36-bit word
(bit 0 least significant), held in five bytes whose top four bits are 0. -/
def decodeTableWord (nbits w : Nat) : Option Instr :=
  if nbits ≤ 40 then
    match decodeNat w with
    | .ok i => some i
    | .error _ => none
  else none

/-- The opcode of a command (R83, R84). -/
def Instr.opcode : Instr → BitVec 4
  | .reserved0 => 0x0#4
  | .setEn _ => 0x1#4
  | .getEn => 0x2#4
  | .setDir _ => 0x3#4
  | .setTgt _ => 0x4#4
  | .move _ => 0x5#4
  | .step _ => 0x6#4
  | .rdReg _ => 0x7#4
  | .hasNext => 0x8#4
  | .getNext => 0x9#4
  | .reservedA => 0xA#4
  | .reservedB => 0xB#4
  | .reservedC => 0xC#4
  | .reservedD => 0xD#4
  | .reservedE => 0xE#4
  | .reservedF => 0xF#4

/-- The bit of a direction operand (R82). -/
def Direction.bit : Direction → Bool
  | .clockwise => true
  | .counterClockwise => false

/-- The operand word of a command, ignored bits zero, as the assembler writes them (R81, R82, R97). -/
def Instr.operand : Instr → Word
  | .setEn b => (BitVec.ofBool b).zeroExtend 32
  | .setDir d => (BitVec.ofBool d.bit).zeroExtend 32
  | .setTgt p => p
  | .move n => BitVec.ofNat 32 n
  | .step u => BitVec.ofNat 32 u
  | .rdReg idx => (BitVec.ofNat 4 idx).zeroExtend 32
  | .reserved0 | .getEn | .hasNext | .getNext => 0#32
  | .reservedA | .reservedB | .reservedC | .reservedD | .reservedE | .reservedF => 0#32

/-- The command word of a command: `op` in `cmd[35:32]`, `arg` in `cmd[31:0]` (R80). -/
def encode (i : Instr) : CmdWord := i.opcode ++ i.operand

/-- The bits of `arg` that the format of an opcode reads: one for `B`, all for `U` and `F`, four for `R`, none for
`N` and for a reserved opcode (R81, R84). -/
def argMask (op : BitVec 4) : Word :=
  match op.toNat with
  | 0x1 | 0x3 => 0x00000001#32
  | 0x4 | 0x5 | 0x6 => 0xFFFFFFFF#32
  | 0x7 => 0x0000000F#32
  | _ => 0x00000000#32

/-- The bits of a command word that its format reads, the ignored ones cleared. Two words that agree on them differ
only in ignored bits (R85). -/
def usedBits (w : CmdWord) : CmdWord := opField w ++ (argField w &&& argMask (opField w))

/-- One row of the opcode map: a word `w` selects it when `w &&& mask = pattern` (R83). -/
structure OpcodeRow where
  mnemonic : String
  pattern : CmdWord
  mask : CmdWord
deriving DecidableEq, Repr

/-- The opcode map of R83 and R84, row by row as the table prints it. -/
def opcodeRows : List OpcodeRow := [
  ⟨"RESERVED_0", 0x000000000#36, 0xF00000000#36⟩, ⟨"SETEN", 0x100000000#36, 0xF00000000#36⟩,
  ⟨"GETEN", 0x200000000#36, 0xF00000000#36⟩, ⟨"SETDIR", 0x300000000#36, 0xF00000000#36⟩,
  ⟨"SETTGT", 0x400000000#36, 0xF00000000#36⟩, ⟨"MOVE", 0x500000000#36, 0xF00000000#36⟩,
  ⟨"STEP", 0x600000000#36, 0xF00000000#36⟩, ⟨"RDREG", 0x700000000#36, 0xF00000000#36⟩,
  ⟨"HASNEXT", 0x800000000#36, 0xF00000000#36⟩, ⟨"GETNEXT", 0x900000000#36, 0xF00000000#36⟩,
  ⟨"RESERVED_A", 0xA00000000#36, 0xF00000000#36⟩, ⟨"RESERVED_B", 0xB00000000#36, 0xF00000000#36⟩,
  ⟨"RESERVED_C", 0xC00000000#36, 0xF00000000#36⟩, ⟨"RESERVED_D", 0xD00000000#36, 0xF00000000#36⟩,
  ⟨"RESERVED_E", 0xE00000000#36, 0xF00000000#36⟩, ⟨"RESERVED_F", 0xF00000000#36, 0xF00000000#36⟩]

/-- The rows of the opcode map that a word selects (R83). -/
def rowsOf (w : CmdWord) : List OpcodeRow := opcodeRows.filter fun r => w &&& r.mask == r.pattern

/-- The row's mnemonic of a command. -/
def Instr.mnemonic : Instr → String
  | .reserved0 => "RESERVED_0"
  | .setEn _ => "SETEN"
  | .getEn => "GETEN"
  | .setDir _ => "SETDIR"
  | .setTgt _ => "SETTGT"
  | .move _ => "MOVE"
  | .step _ => "STEP"
  | .rdReg _ => "RDREG"
  | .hasNext => "HASNEXT"
  | .getNext => "GETNEXT"
  | .reservedA => "RESERVED_A"
  | .reservedB => "RESERVED_B"
  | .reservedC => "RESERVED_C"
  | .reservedD => "RESERVED_D"
  | .reservedE => "RESERVED_E"
  | .reservedF => "RESERVED_F"

/-- The pseudo-instructions of R98, each another spelling of one command word: `MOVE`, `STEP`, `RAMP`, `ENABLE`,
`DISABLE`, `CW`, `CCW`. The first two take the assembler's default operands (`MOVE_DEFAULT_N`, `STEP_DEFAULT_US`). -/
inductive Pseudo where
  | moveDefault | stepDefault | ramp | enable | disable | cw | ccw
deriving DecidableEq, Repr

/-- The command a pseudo-instruction expands to (R98); the defaults are the assembler's (R7). -/
def Pseudo.expand : Pseudo → Instr
  | .moveDefault => .move Config.moveDefaultN
  | .stepDefault => .step Config.stepDefaultUs
  | .ramp => .move 0
  | .enable => .setEn true
  | .disable => .setEn false
  | .cw => .setDir .clockwise
  | .ccw => .setDir .counterClockwise

end Sys2Proof
end

