-- ==== Sys2Proof/Machine/Float32.lean ====
section
/-! DEFINITION. The speed number format and its arithmetic (42_motion.md R150 to R154): binary32 patterns, exact
values, one rounding function, and operations that round the exact result once. Every finite value is a whole
number of units of 2^-149 (R151), so an exact value is an integer, and an exact quotient is an integer over a
natural number, in those units: no rational is lost and none is approximated. -/

namespace Sys2Proof.Machine.F32

/-- The sign bit `p[31]` (R151). -/
def sign (p : Word) : Bool := p.getLsbD 31

/-- The exponent field `p[30:23]` (R151). -/
def expo (p : Word) : Nat := (p.extractLsb' 23 8).toNat

/-- The fraction `p[22:0]` (R151). -/
def frac (p : Word) : Nat := (p.extractLsb' 0 23).toNat

/-- A pattern is finite when its exponent field is not 255 (R151). -/
def finite (p : Word) : Bool := expo p != 255

/-- The magnitude of a finite pattern in units of 2^-149: `f` when the exponent field is 0, else
`(2^23 + f) × 2^(e-150)`, which is `(2^23 + f) × 2^(e-1)` units (R151). -/
def mag (p : Word) : Nat :=
  if expo p = 0 then frac p else (2 ^ 23 + frac p) * 2 ^ (expo p - 1)

/-- `val(p)` in units of 2^-149 (R151). The spec gives a pattern that is not finite no value: a free value. -/
def val (p : Word) : Int :=
  if finite p then (if sign p then -(mag p : Int) else (mag p : Int)) else Config.freeValue p

/-- `val(p)` as the rational number of R151, for statements. -/
def toRat (p : Word) : Rat := (val p : Rat) / 2 ^ 149

/-- The exponent of the rounding unit of the magnitude `n / d` (in units of 2^-149): with
`E = max(floor(log2(a)), -126)` the unit `u = 2^(E-23)` of R152 is `2^rndExp` units of 2^-149. -/
def rndExp (n d : Nat) : Nat := Nat.log2 (n / d) - 23

/-- `m` of R152 after the tie rule: the magnitude `n / d` in rounding units, to the nearest, ties to even. -/
def rndSig (n d : Nat) : Nat :=
  let u := d * 2 ^ rndExp n d
  if u < 2 * (n % u) ∨ (2 * (n % u) = u ∧ n / u % 2 = 1) then n / u + 1 else n / u

/-- `enc(m × u)` without its sign: the pattern of `rndSig × 2^rndExp` units. A significand of 2^24 carries into
the exponent field, "the next power of two" (R152). -/
def rndMag (n d : Nat) : Nat := rndExp n d * 2 ^ 23 + rndSig n d

/-- The domain of `rnd32`: a quotient (its divisor is not 0) whose magnitude is below 2^127, that is below
2^276 units (R152). -/
def inDomain (num : Int) (den : Nat) : Bool := den != 0 && Nat.log2 (num.natAbs / den) < 276

/-- `enc(rnd32(x))` for `x = num / den` units of 2^-149 (R152); a zero result is `0x00000000` (R153). Outside the
domain the spec states no result: a free value. -/
def rnd32 (num : Int) (den : Nat) : Word :=
  if inDomain num den then
    if rndMag num.natAbs den = 0 then 0x00000000#32
    else BitVec.ofNat 32 ((if num < 0 then 2 ^ 31 else 0) + rndMag num.natAbs den)
  else Config.freeRound num den

/-- `fsub(a, b) = rnd32(a - b)` (R153). -/
def fsub (a b : Word) : Word := rnd32 (val a - val b) 1

/-- `fadd(a, b) = rnd32(a + b)` (R153). -/
def fadd (a b : Word) : Word := rnd32 (val a + val b) 1

/-- `fmul(a, b) = rnd32(a × b)` (R153): a product of two unit counts is a count of units of 2^-298. -/
def fmul (a b : Word) : Word := rnd32 (val a * val b) (2 ^ 149)

/-- `fdiv(a, b) = rnd32(a / b)` (R153), a true division rounded once, the divisor's sign carried to the top. -/
def fdiv (a b : Word) : Word := rnd32 (val a * 2 ^ 149 * (val b).sign) (val b).natAbs

/-- `fabs(a)`, the magnitude as an exact value in units (R153). -/
def fabs (a : Word) : Nat := (val a).natAbs

/-- `flt(abs a, b)`: the strict comparison of a magnitude with a value (R154). -/
def absLt (a b : Word) : Bool := (fabs a : Int) < val b

/-- `fgt(a, b)`: the strict comparison of exact values (R154). -/
def fgt (a b : Word) : Bool := val b < val a

/-- The pattern of a whole number: every `SPR` in 1..65535 is representable (R151). -/
def ofNat (n : Nat) : Word := rnd32 ((n : Int) * 2 ^ 149) 1

/-- `trunc(q)`, the whole part of a non-negative value (R8, R158), as an unsigned 32-bit integer. -/
def trunc (q : Word) : Word := BitVec.ofNat 32 (val q / 2 ^ 149).toNat

end Sys2Proof.Machine.F32
end

