-- ==== Sys2Proof/Machine/State.lean ====
section
/-! DEFINITION. The state of one block instance and of its environment, as plain data, and the state after reset.
The block's own state is 10_state.md R20 to R32; the environment's is R33 and the host's side of the ports (R34);
`obs` is the record of what can be observed of a run (00_scope.md R11). INVENTORY.md lists every field. -/

namespace Sys2Proof.Machine

/-- The sequencer's phase (10_state.md R27): ready for a command, or executing one. -/
inductive Phase where
  | idle
  | exec
deriving DecidableEq, Repr

/-- The status of a response (30_encoding.md R88). The code `0b11` is never produced (U14) and has no name here. -/
inductive Status where
  /-- the command was executed as its rule says -/
  | ok
  /-- the opcode is reserved -/
  | illegalOp
  /-- the opcode is assigned but the operand value is refused -/
  | badOperand
deriving DecidableEq, Repr

/-- A response: its status and its data (30_encoding.md R87). -/
structure Response where
  status : Status
  data : Word
deriving DecidableEq, Repr

/-- The three output pins (10_state.md R25). -/
inductive Pin where
  | en
  | dir
  | step
deriving DecidableEq, Repr

/-- What can be observed of a run (00_scope.md R11): a `PinWrite` with its level (true is high) and its `Now()`
sample, a response, a byte removed from the transport by `RxRead()`. -/
inductive Obs where
  | pin (pin : Pin) (level : Bool) (time : Word)
  | response (r : Response)
  | rxRead (b : Byte)
deriving DecidableEq, Repr

/-- One move of the environment (R33, R227): time advances, bytes arrive at the tail of the transport queue, and
the host may assert `rst`. Time advances "by any amount" (R227), so `advance` is unbounded; where the move ends a wait,
it is the wait's overshoot (41_pulse.md R136). -/
structure EnvMove where
  advance : Nat
  arrivals : List Byte
  rst : Bool
deriving DecidableEq, Repr

/-- The environment of the block (10_state.md R33, R34; 70_reset_and_hazards.md R227). `tq` is the spec's `TQ`, and
`time` is its time counter "as an unbounded natural number of which the port shows the low 32 bits"
(93_implementation_defined.md U10): the port is `Env.now`. The other three fields are the model's own: what the host
will do at the `cmd` port, in order, the head being the port now (a word, presented until it is accepted, or none,
`cmd_valid` 0 for one step, log entry 13); the moves the environment will make, in order; and the count of the moves
made, to which the free moves after the script's end are applied (log entry 2). -/
structure Env where
  tq : List Byte
  time : Nat
  cmds : List (Option CmdWord)
  script : List EnvMove
  draw : Nat
deriving DecidableEq, Repr

/-- The sequencer's working registers, "live only in `EXEC`, not readable by any command" (10_state.md R32). -/
structure Work where
  opc : BitVec 4
  arg : Word
  t0 : Word
  e1 : Word
  rem : Word
  nleft : Word
deriving DecidableEq, Repr

/-- The two open parameters of an instance (00_scope.md R7, R24): `SPR`, in 1..65535, and `T_PACE_US`, at least 1.
No command and no reset writes them. -/
structure Params where
  spr : BitVec 16
  tPace : Word
deriving DecidableEq, Repr

/-- The receive buffer's cells that have been written since reset, as pairs of index and byte in rising order of
index (20_memory.md R60, R61; `Memory.wf` in Ops.lean is the canonical form). -/
abbrev Memory := List Host.Cell

/-- The whole state (10_state.md R20). -/
structure State where
  /-- `CUR`, current speed, a binary32 pattern in rev/s (R21) -/
  cur : Word
  /-- `TGT`, target speed, a binary32 pattern in rev/s (R22) -/
  tgt : Word
  /-- `EN`, the software enabled flag (R23) -/
  en : Bool
  /-- `PIN_EN`, the level of `en_o`; high is disabled (R25) -/
  pinEn : Bool
  /-- `PIN_DIR`, the level of `dir_o`; high is clockwise (R25) -/
  pinDir : Bool
  /-- `PIN_STEP`, the level of `step_o` (R25) -/
  pinStep : Bool
  /-- `DUR`, last step duration in microseconds (R26) -/
  dur : Word
  /-- `RXBUF[0..31]` (R30) -/
  rxbuf : Memory
  /-- `RDC`, the read cursor (R30) -/
  rdc : Cursor
  /-- `FLC`, the fill cursor (R30) -/
  flc : Cursor
  /-- the sequencer's phase (R27) -/
  phase : Phase
  /-- the sequencer's working registers (R32) -/
  work : Work
  /-- the response port: `rsp` while `rsp_valid` is 1, none while it is 0 (R34, R87) -/
  rsp : Option Response
  /-- the open parameters, `SPR` among them (R7, R24) -/
  params : Params
  /-- the environment: transport queue, time counter, host (R33, R227) -/
  env : Env
  /-- what has been observed so far, oldest first (R11) -/
  obs : List Obs
deriving DecidableEq, Repr

/-- Why a step can stop. The block raises no exception (60_exceptions.md R190); the one fault here stands for an
access that the spec says cannot happen. -/
inductive Fault where
  /-- `GETNEXT` with bytes pending and `RDC` above 31: `BufRead(i)` "requires `0 <= i <= 31`" (20_memory.md R61).
  Raised by `execGetNext` only. Safe: the machine stops, and in every state that meets the cursor rule R31 it
  does not happen. -/
  | bufferIndexOutOfRange
deriving DecidableEq, Repr

/-- Why a step can be refused. -/
inductive Refusal where
  /-- An instruction without a meaning in the model. Raised by a refused arm of `exec` only; no arm is refused.
  Safe. -/
  | notModelled (mnemonic : String)
deriving DecidableEq, Repr

/-- The working registers after reset: "cleared" (R35). -/
def Work.reset : Work :=
  { opc := 0#4, arg := 0#32, t0 := 0#32, e1 := 0#32, rem := 0#32, nleft := 0#32 }

/-- The state after reset (10_state.md R35, 70_reset_and_hazards.md R211), with the default parameters (R7). The
spec does not reset `TQ` and `now`. They stand here empty and at 0, and no host word, no scripted move and no
observation is there yet (log entry 3). No cell of the receive buffer is listed: their contents are unspecified
(log entry 4). -/
def State.reset : State :=
  { cur := 0x00000000#32
    tgt := 0x00000000#32
    en := false
    pinEn := true
    pinDir := false
    pinStep := false
    dur := 0#32
    rxbuf := []
    rdc := 0#6
    flc := 0#6
    phase := .idle
    work := Work.reset
    rsp := none
    params := { spr := Config.sprDefault, tPace := Config.tPaceDefault }
    env := { tq := [], time := 0, cmds := [], script := [], draw := 0 }
    obs := [] }

end Sys2Proof.Machine
end

