-- ==== Sys2Proof/Machine/Ops.lean ====
section
/-! DEFINITION. The named operations over state that the commands share: the buffer's cells, the environment's
moves and waits, the output pins, acceptance and response, and the block's reset. The block takes no trap, so
there is no trap entry and no return from one (60_exceptions.md R190, R194, R195): its one report is a response. -/

namespace Sys2Proof.Machine

/-! ### The receive buffer's cells (20_memory.md R60, R61) -/

/-- What an unlisted cell holds: no value that the model knows (R35, log entry 4). -/
def Memory.unlisted (_ : Nat) : Option Byte := none

/-- The canonical form: indices strictly rise, are below the capacity, and no entry says what an unlisted cell
says. Equal buffers are then equal lists. -/
def Memory.wf (m : Memory) : Bool :=
  decide (m.Pairwise fun c d => c.1 < d.1) &&
    m.all fun c => decide (c.1 < Config.cap) && (Memory.unlisted c.1 != some c.2)

/-- The byte at an index, if the cell has been written since reset. -/
def Memory.read : Memory → Nat → Option Byte
  | [], i => Memory.unlisted i
  | c :: m, i => if c.1 = i then some c.2 else Memory.read m i

/-- `BufWrite(i, b)`: `RXBUF[i] <- b` (R61), keeping the indices in rising order. -/
def Memory.write : Memory → Nat → Byte → Memory
  | [], i, b => [(i, b)]
  | c :: m, i, b =>
    if i < c.1 then (i, b) :: c :: m
    else if i = c.1 then (i, b) :: m
    else c :: Memory.write m i b

/-- `BufRead(i)`: the byte `RXBUF[i]` (R61). A cell that nothing has written since reset reads as a free value
(U1); by R31 no command reads one. -/
def State.bufRead (s : State) (i : Nat) : Byte :=
  match s.rxbuf.read i with
  | some b => b
  | none => Config.freeCell s.env.draw i

/-! ### The environment: moves, samples and waits (10_state.md R33, 41_pulse.md R136) -/

/-- The environment's next move: the next one of its script, or a free one that does not assert `rst`. -/
def Env.move (e : Env) : EnvMove :=
  match e.script with
  | m :: _ => m
  | [] => { advance := Config.freeAdvance e.draw, arrivals := Config.freeArrivals e.draw, rst := false }

/-- `Now()`: the `now` port, the time in microseconds modulo 2^32 (R33, R136). -/
def Env.now (e : Env) : Word := BitVec.ofNat 32 e.time

/-- The environment makes one move: bytes arrive at the tail of `TQ` and time advances (R33). -/
def Env.pass (e : Env) : Env :=
  { e with
    tq := e.tq ++ e.move.arrivals
    time := e.time + e.move.advance
    script := e.script.tail
    draw := e.draw + 1 }

/-- Whether the host asserts `rst` in the next move (70_reset_and_hazards.md R227). -/
def Env.struck (e : Env) : Bool := e.move.rst

/-- `Elapsed(t) = (Now() - t) mod 2^32` (R10, R136). -/
def Env.elapsed (e : Env) (t : Word) : Word := e.now - t

/-- The sample `e` that ends `WaitFrom(t, d)`: at least `d` and at least what has elapsed when the wait begins,
and otherwise any 32-bit value (R136, U2, U10). The move's `advance` is the overshoot; one that would pass 2^32
is taken modulo the room that is left. -/
def Env.waitSample (e : Env) (t d : Word) : Word :=
  let least := max d.toNat (e.elapsed t).toNat
  BitVec.ofNat 32 (least + e.move.advance % (2 ^ 32 - least))

/-- The environment when `WaitFrom(t, d)` returns: the wait's one move has been made, and time has advanced from what
had elapsed to the sample. -/
def Env.waitFrom (e : Env) (t d : Word) : Env :=
  { e.pass with time := e.time + ((e.waitSample t d).toNat - (e.elapsed t).toNat) }

/-- The environment after `RxRead()`: the head of `TQ` is gone (40_rxfifo.md R113). -/
def Env.popRx (e : Env) : Env := { e with tq := e.tq.tail }

/-- The host is done with the head of its list: its word is accepted (R86), or its step without one is over. -/
def Env.popCmd (e : Env) : Env := { e with cmds := e.cmds.tail }

/-! ### Named updates of the state -/

def State.withEnv (s : State) (e : Env) : State := { s with env := e }

/-- `PinWrite(PIN_EN, level)`: the latch and an event, even when the level does not change (R10, R11). The event
is stamped with the `Now()` sample of its rule. -/
def State.writePinEn (s : State) (level : Bool) : State :=
  { s with pinEn := level, obs := s.obs ++ [.pin .en level s.env.now] }

@[inherit_doc State.writePinEn] def State.writePinDir (s : State) (level : Bool) : State :=
  { s with pinDir := level, obs := s.obs ++ [.pin .dir level s.env.now] }

@[inherit_doc State.writePinEn] def State.writePinStep (s : State) (level : Bool) : State :=
  { s with pinStep := level, obs := s.obs ++ [.pin .step level s.env.now] }

/-- The block's reset (10_state.md R35, 70_reset_and_hazards.md R210 to R212): every element of the block at its
reset value, a command in progress abandoned with no response, no `PinWrite`; the environment, the parameters and
what has been observed stay. The buffer's cells are unspecified again. -/
def State.blockReset (s : State) : State :=
  { State.reset with params := s.params, env := s.env, obs := s.obs }

/-- Acceptance (30_encoding.md R86): the sequencer latches `cmd` into `OPC ‖ ARG` and leaves `IDLE`. -/
def State.accept (s : State) (op : BitVec 4) (arg : Word) : State :=
  { s with
    phase := .exec
    work := { s.work with opc := op, arg := arg }
    env := s.env.popCmd }

/-- The response is on the port and the sequencer is back in `IDLE` (R87). -/
def State.answer (s : State) (r : Response) : State :=
  { s with phase := .idle, rsp := some r, obs := s.obs ++ [.response r] }

/-! ### Ports (10_state.md R34) -/

/-- `cmd_ready`: 1 exactly when the sequencer is `IDLE`. -/
def State.cmdReady (s : State) : Bool := s.phase == .idle

/-- `cmd`, while `cmd_valid` is 1. -/
def State.cmdPort (s : State) : Option CmdWord := s.env.cmds.head?.join

/-- `rx_avail`: `TQ` is not empty. -/
def State.rxAvail (s : State) : Bool := !s.env.tq.isEmpty

/-- `rx_data`: the oldest waiting byte, while `rx_avail` is 1 (U11: never read otherwise). -/
def State.rxData (s : State) : Option Byte := s.env.tq.head?

/-- The code of a status, `rsp[33:32]` (R88). -/
def Status.code : Status → BitVec 2
  | .ok => 0b00#2
  | .illegalOp => 0b01#2
  | .badOperand => 0b10#2

/-- The response word: `rsp[33:32] = status`, `rsp[31:0] = data` (R87). -/
def Response.word (r : Response) : RspWord := r.status.code ++ r.data

/-- `rsp_valid` and `rsp`: the word while a response is on the port. -/
def State.rspPort (s : State) : Option RspWord := s.rsp.map Response.word

/-! ### The course of a command (10_state.md R27, R33; 70_reset_and_hazards.md R212)

One step of the machine is one command, from acceptance to response (R32 allows this: the working registers are
then local to it). Between any two actions of the sequencer the environment makes a move; where the host asserts
`rst` in one, the rest of the command does not happen. -/

/-- How far a command has come: it runs on in a state, or reset has abandoned it and left a state. -/
inductive Progress where
  | running (s : State)
  | abandoned (s : State)
deriving DecidableEq, Repr

/-- The next part of a command, unless it has been abandoned. -/
def Progress.andThen (p : Progress) (f : State → Progress) : Progress :=
  match p with
  | .running s => f s
  | .abandoned s => .abandoned s

/-- The state a command leaves. -/
def Progress.state : Progress → State
  | .running s => s
  | .abandoned s => s

/-- A command ends in the state it leaves, answered or abandoned. -/
def Progress.outcome (p : Progress) : Host.Outcome State Fault Refusal := .next p.state

/-- The environment's move before an action of the sequencer. -/
def State.gap (s : State) : Progress :=
  if s.env.struck then .abandoned (s.withEnv s.env.pass).blockReset
  else .running (s.withEnv s.env.pass)

/-- `WaitFrom(t, d)` (R136). Reset can strike in it before it is over. -/
def State.wait (s : State) (t d : Word) : Progress :=
  if s.env.struck then .abandoned (s.withEnv s.env.pass).blockReset
  else .running (s.withEnv (s.env.waitFrom t d))

/-- `Respond(status, data)` (R10, R87), after all effects of the command (R86). -/
def State.respond (s : State) (st : Status) (data : Word) : Progress :=
  s.gap.andThen fun s => .running (s.answer { status := st, data := data })

end Sys2Proof.Machine
end

