-- ==== Sys2Proof/Machine/Flags.lean ====
section
/-! DEFINITION. Flags and tests. The block has no condition-code register: its only flag is `EN`, and the two
tests of `MOVE` are evaluated and not latched (10_state.md R28). -/

namespace Sys2Proof.Machine

/-- `EN` extended to a response datum: `zext_32(EN)` (30_encoding.md R87, 41_pulse.md R132). -/
def enableDatum (en : Bool) : Word := (BitVec.ofBool en).zeroExtend 32

/-- The snap test `flt(fabs(delta), 1/4)`, on the rounded `delta` (42_motion.md R157). -/
def snaps (delta : Word) : Bool := F32.absLt delta Config.snap

/-- The threshold test `fgt(val(CUR), 1/2)`, strict (42_motion.md R156). -/
def aboveThreshold (cur : Word) : Bool := F32.fgt cur Config.vMin

/-- `SR_FLAGS` (43_rdreg.md R181): bit 0 `EN`, bit 1 the level of `PIN_EN`, bit 2 of `PIN_DIR`, bit 3 of
`PIN_STEP`, the rest zero. -/
def flagsWord (en pinEn pinDir pinStep : Bool) : Word :=
  0#28 ++ (BitVec.ofBool pinStep ++ (BitVec.ofBool pinDir ++ (BitVec.ofBool pinEn ++ BitVec.ofBool en)))

/-- The answer of `HASNEXT`: 1 if a byte is pending, else 0, by the comparison `RDC == FLC` (40_rxfifo.md R111). -/
def pendingDatum (rdc flc : Cursor) : Word := if rdc = flc then 0#32 else 1#32

end Sys2Proof.Machine
end

