-- ==== Sys2Proof/Machine/Operands.lean ====
section
/-! DEFINITION. What each operand form means to its command (30_encoding.md R81, R82, R85): the level a Boolean
or a direction drives, a `U` operand as a word, which targets `SETTGT` accepts and what it stores, and the words of
the status window that an index selects. -/

namespace Sys2Proof.Machine

/-- The level of the enable pin: enabled is `EN_ACTIVE_LEVEL` (41_pulse.md R131). -/
def enableLevel (enabled : Bool) : Bool :=
  if enabled then Config.enActiveLevel else !Config.enActiveLevel

/-- The level of the direction pin: clockwise is `DIR_CW_LEVEL` (41_pulse.md R133). -/
def directionLevel : Direction → Bool
  | .clockwise => Config.dirCwLevel
  | .counterClockwise => !Config.dirCwLevel

/-- A `U` operand as the 32 bits of `arg` (R82). -/
def wordOfU (u : Nat) : Word := BitVec.ofNat 32 u

/-- `SETTGT` refuses an infinity or a NaN, and a magnitude above `RPS_MAX`, by the unsigned order of `p[30:0]`
(42_motion.md R155). -/
def targetRefused (p : Word) : Bool :=
  p.extractLsb' 23 8 == 0xFF#8 || decide (Config.rpsMax.toNat < (p.extractLsb' 0 31).toNat)

/-- What an accepted target is stored as: negative zero as +0 (R155). -/
def targetStored (p : Word) : Word := if p = 0x80000000#32 then 0x00000000#32 else p

/-- `SR_CURSORS` (43_rdreg.md R181): bits 5:0 `RDC`, bits 13:8 `FLC`, the rest zero. -/
def cursorsWord (rdc flc : Cursor) : Word := 0#18 ++ (flc ++ (0#2 ++ rdc))

/-- `SR[idx]` (43_rdreg.md R181), none for a reserved index. -/
def State.statusWord (s : State) (idx : Nat) : Option Word :=
  match idx with
  | 0 => some s.cur
  | 1 => some s.tgt
  | 2 => some (flagsWord s.en s.pinEn s.pinDir s.pinStep)
  | 3 => some (cursorsWord s.rdc s.flc)
  | 4 => some (s.params.spr.zeroExtend 32)
  | 5 => some s.dur
  | _ => none

end Sys2Proof.Machine
end

