-- ==== Sys2Proof/Machine/Pulse.lean ====
section
/-! DEFINITION. The Pulse Driver: `SETEN`, `GETEN`, `SETDIR`, `STEP` and the step-pulse primitive (41_pulse.md). -/

namespace Sys2Proof.Machine

/-- The sequencer's first action in `MoveStep(dur)` (R135): `DUR <- dur`, `T0 <- Now()`, and the rising edge
"stamped T0". -/
def State.pulseHigh (s : State) (dur : Word) : State :=
  { s with dur := dur, work := { s.work with t0 := s.env.now } }.writePinStep Config.stepActiveLevel

/-- `REM`: the remaining time, "clamped to a minimum of zero" (R135, R137). -/
def remaining (e1 dur : Word) : Word := if dur ≤ e1 then 0#32 else dur - e1

/-- The action that ends the first wait (R135): `E1` is the elapsed time of the wait's last sample, which also
stamps the falling edge and gives `REM`. -/
def State.pulseLow (s : State) (dur : Word) : State :=
  { s with work := { s.work with
      e1 := s.env.elapsed s.work.t0
      rem := remaining (s.env.elapsed s.work.t0) dur } }.writePinStep (!Config.stepActiveLevel)

/-- `MoveStep(dur)`, one step pulse (R135). -/
def State.moveStep (s : State) (dur : Word) : Progress :=
  s.gap.andThen fun s =>
  ((s.pulseHigh dur).wait s.env.now (dur >>> 1)).andThen fun s =>
  (s.pulseLow dur).wait (s.work.t0 + (s.pulseLow dur).work.e1) (s.pulseLow dur).work.rem

/-- `SETEN b` (R131): the pin and the flag in one action. -/
def execSetEn (b : Bool) (s : State) : Host.Outcome State Fault Refusal :=
  Progress.outcome <|
    s.gap.andThen fun s =>
    { s.writePinEn (enableLevel b) with en := b }.respond .ok 0#32

/-- `GETEN` (R132): the answer comes from the register, never from the pin. -/
def execGetEn (s : State) : Host.Outcome State Fault Refusal :=
  Progress.outcome (s.respond .ok (enableDatum s.en))

/-- `SETDIR d` (R133). -/
def execSetDir (d : Direction) (s : State) : Host.Outcome State Fault Refusal :=
  Progress.outcome <|
    s.gap.andThen fun s => (s.writePinDir (directionLevel d)).respond .ok 0#32

/-- `STEP u` (R134): one pulse, whatever `EN` and the speed are (R139). -/
def execStep (u : Nat) (s : State) : Host.Outcome State Fault Refusal :=
  Progress.outcome <|
    (s.moveStep (wordOfU u)).andThen fun s => s.respond .ok 0#32

end Sys2Proof.Machine
end

