-- ==== Sys2Proof/Machine/Motion.lean ====
section
/-! DEFINITION. The Motion Controller: `SETTGT`, `MOVE`, the ramp tick and the step duration (42_motion.md). -/

namespace Sys2Proof.Machine

/-- `SETTGT f` (R155): `TGT` is written on `OK` only. -/
def execSetTgt (p : Word) (s : State) : Host.Outcome State Fault Refusal :=
  Progress.outcome <|
    if targetRefused p then s.respond .badOperand 0#32
    else s.gap.andThen fun s => { s with tgt := targetStored p }.respond .ok 0#32

/-- `delta` of a ramp tick: `fsub(t, c)`, one rounding (R157). -/
def rampDelta (cur tgt : Word) : Word := F32.fsub tgt cur

/-- `RampTick()` as a function of `CUR` and `TGT` to the new `CUR` (R157): the snap copies the pattern of `TGT`,
the step adds `delta / 5`, each operation rounded once. -/
def rampTick (cur tgt : Word) : Word :=
  if snaps (rampDelta cur tgt) then tgt
  else F32.fadd cur (F32.fdiv (rampDelta cur tgt) Config.rampDiv)

/-- `StepDuration()` (R158): multiply, divide, each rounded once, then truncate. -/
def stepDuration (cur : Word) (spr : BitVec 16) : Word :=
  F32.trunc (F32.fdiv Config.usPerS (F32.fmul cur (F32.ofNat spr.toNat)))

/-- The step loop of `MOVE` (R156): as many pulses of one duration as `NLEFT` counts down. -/
def State.pulses (dur : Word) : Nat → State → Progress
  | 0, s => .running s
  | n + 1, s =>
    (s.moveStep dur).andThen fun s =>
    State.pulses dur n { s with work := { s.work with nleft := wordOfU n } }

/-- `MOVE n` (R156): one ramp tick, before anything else; then `n` pulses if the new speed is above the
threshold. `EN` is not read (41_pulse.md R139). -/
def execMove (n : Nat) (s : State) : Host.Outcome State Fault Refusal :=
  Progress.outcome <|
    s.gap.andThen fun s =>
    let s := { s with cur := rampTick s.cur s.tgt }
    if aboveThreshold s.cur then
      (State.pulses (stepDuration s.cur s.params.spr) n
        { s with work := { s.work with nleft := wordOfU n } }).andThen fun s =>
      s.respond .ok (wordOfU n)
    else s.respond .ok 0#32

end Sys2Proof.Machine
end

