-- ==== Sys2Proof/Machine/RxFifo.lean ====
section
/-! DEFINITION. The Line Receive Buffer: `HASNEXT`, `GETNEXT` and the drain (40_rxfifo.md). -/

namespace Sys2Proof.Machine

/-- The append of one byte (R114): pop the transport, write `RXBUF[FLC]`, advance `FLC`, "one indivisible action"
(20_memory.md R64). -/
def State.appendRx (s : State) (b : Byte) : State :=
  { s with
    rxbuf := s.rxbuf.write s.flc.toNat b
    flc := s.flc + 1
    env := s.env.popRx
    obs := s.obs ++ [.rxRead b] }

/-- `T0 <- Now()` and the pacing pause (R114). -/
def State.pause (s : State) : Progress :=
  s.gap.andThen fun s =>
  { s with work := { s.work with t0 := s.env.now } }.wait s.env.now s.params.tPace

/-- The drain's loop (R114): at each pass `RxAvail()` and `FLC < 32` are evaluated together, and directly after a
sample that finds a byte it is read. The first argument bounds the passes; a pass adds 1 to `FLC`, so the bound
`CAP + 1` of `State.drain` is never what ends the loop (`drain_bound` in Laws). -/
def State.drainLoop : Nat → State → Progress
  | 0, s => .running s
  | n + 1, s =>
    s.gap.andThen fun s =>
    match s.rxData with
    | some b =>
      if s.flc.toNat < Config.cap then (s.appendRx b).pause.andThen fun s => State.drainLoop n s
      else .running s
    | none => .running s

/-- `Drain()` (R114). -/
def State.drain (s : State) : Progress := State.drainLoop (Config.cap + 1) s

/-- `HASNEXT` (R111): a drain if, and only if, the buffer is empty; then whether a byte is pending. -/
def execHasNext (s : State) : Host.Outcome State Fault Refusal :=
  Progress.outcome <|
    if s.rdc = s.flc then s.drain.andThen fun s => s.respond .ok (pendingDatum s.rdc s.flc)
    else s.respond .ok (pendingDatum s.rdc s.flc)

/-- The removal of the oldest pending byte (R112), one indivisible action: advance `RDC`, and reset both cursors
if that was the last pending byte (90_conflicts.md C1). -/
def State.removeRx (s : State) : State :=
  { s with
    rdc := if s.rdc + 1 = s.flc then 0#6 else s.rdc + 1
    flc := if s.rdc + 1 = s.flc then 0#6 else s.flc }

/-- `GETNEXT` (R112): the oldest pending byte, or the sentinel 0 with no state written. It never drains. A read
cursor above 31 with bytes pending is outside the buffer (20_memory.md R61). -/
def execGetNext (s : State) : Host.Outcome State Fault Refusal :=
  if s.rdc = s.flc then Progress.outcome (s.respond .ok 0#32)
  else if s.rdc.toNat < Config.cap then
    Progress.outcome <|
      s.gap.andThen fun s =>
      s.removeRx.respond .ok ((s.bufRead s.rdc.toNat).zeroExtend 32)
  else .fault .bufferIndexOutOfRange

end Sys2Proof.Machine
end

