-- ==== Sys2Proof/Machine/Status.lean ====
section
/-! DEFINITION. The status read `RDREG` and the seven reserved opcodes (43_rdreg.md). -/

namespace Sys2Proof.Machine

/-- `RDREG idx` (R180): `SR[idx]`, or a refusal of a reserved index. It writes no state. -/
def execRdReg (idx : Nat) (s : State) : Host.Outcome State Fault Refusal :=
  Progress.outcome <|
    match s.statusWord idx with
    | some w => s.respond .ok w
    | none => s.respond .badOperand 0#32

/-- What every reserved opcode does (R182, 30_encoding.md R84): `Respond(ILLEGAL_OP, 0)` and nothing else. -/
def State.illegalOp (s : State) : Progress := s.respond .illegalOp 0#32

/-- Opcode 0x0 (R182). -/
def execReserved0 (s : State) : Host.Outcome State Fault Refusal := s.illegalOp.outcome

/-- Opcode 0xA (R182). -/
def execReservedA (s : State) : Host.Outcome State Fault Refusal := s.illegalOp.outcome

/-- Opcode 0xB (R182). -/
def execReservedB (s : State) : Host.Outcome State Fault Refusal := s.illegalOp.outcome

/-- Opcode 0xC (R182). -/
def execReservedC (s : State) : Host.Outcome State Fault Refusal := s.illegalOp.outcome

/-- Opcode 0xD (R182). -/
def execReservedD (s : State) : Host.Outcome State Fault Refusal := s.illegalOp.outcome

/-- Opcode 0xE (R182). -/
def execReservedE (s : State) : Host.Outcome State Fault Refusal := s.illegalOp.outcome

/-- Opcode 0xF (R182). -/
def execReservedF (s : State) : Host.Outcome State Fault Refusal := s.illegalOp.outcome

end Sys2Proof.Machine
end

