-- ==== Sys2Proof/Machine/Dispatch.lean ====
section
/-! DEFINITION. What a command does: one arm per constructor, one meaning per arm. -/

namespace Sys2Proof.Machine

def exec (i : Instr) (s : State) : Host.Outcome State Fault Refusal :=
  match i with
  | .reserved0 => Sys2Proof.Machine.execReserved0 s
  | .setEn b => Sys2Proof.Machine.execSetEn b s
  | .getEn => Sys2Proof.Machine.execGetEn s
  | .setDir d => Sys2Proof.Machine.execSetDir d s
  | .setTgt p => Sys2Proof.Machine.execSetTgt p s
  | .move n => Sys2Proof.Machine.execMove n s
  | .step u => Sys2Proof.Machine.execStep u s
  | .rdReg idx => Sys2Proof.Machine.execRdReg idx s
  | .hasNext => Sys2Proof.Machine.execHasNext s
  | .getNext => Sys2Proof.Machine.execGetNext s
  | .reservedA => Sys2Proof.Machine.execReservedA s
  | .reservedB => Sys2Proof.Machine.execReservedB s
  | .reservedC => Sys2Proof.Machine.execReservedC s
  | .reservedD => Sys2Proof.Machine.execReservedD s
  | .reservedE => Sys2Proof.Machine.execReservedE s
  | .reservedF => Sys2Proof.Machine.execReservedF s

end Sys2Proof.Machine
end

