-- ==== Sys2Proof/Machine/Fetch.lean ====
section
/-! DEFINITION. What happens around a command: the environment's move before the port is looked at, reset while no
command runs, the acceptance of a word, and placing a word on the port (30_encoding.md R86, 70_reset_and_hazards.md
R210). Step.lean only calls these. -/

namespace Sys2Proof.Machine

/-- What the sequencer finds at the start of a step. -/
inductive Offer where
  /-- the host asserts `rst`: `cmd_ready` is 0, no word is accepted, the block is in its reset state (R210) -/
  | reset (s : State)
  /-- no word is presented, or the sequencer is not idle and does not look at the port (R86): only time passes -/
  | wait (s : State)
  /-- a word is accepted (R86) -/
  | command (i : Instr) (s : State)
deriving DecidableEq, Repr

/-- The environment's move before the port is looked at; a response of the step before is no longer on the port:
`rsp_valid` is 1 "for exactly one clock" (R87). -/
def State.beforePort (s : State) : State := { s with rsp := none, env := s.env.pass }

/-- A step in which the idle sequencer finds no word: the host's step without one is over (R227, "with any gap"). -/
def State.unoffered (s : State) : State := s.withEnv s.env.popCmd

/-- A word is accepted when it is presented and the sequencer is idle (R86); it decodes in the clock in which it is
accepted (20_memory.md R69). A word presented to a busy block, or during reset, stays on the port. -/
def State.offer (s : State) : Offer :=
  if s.env.struck then .reset s.beforePort.blockReset
  else if s.beforePort.cmdReady then
    match s.beforePort.cmdPort with
    | some w => .command (decode w) (s.beforePort.accept (opField w) (argField w))
    | none => .wait s.beforePort.unoffered
  else .wait s.beforePort

/-- The next scripted move, with `rst` not asserted. -/
def clearRst : List EnvMove → List EnvMove
  | [] => []
  | m :: ms => { m with rst := false } :: ms

/-- The host presents `w` next, before the words it was going to present, on an idle block and without a reset. -/
def State.present (s : State) (w : CmdWord) : State :=
  { s with
    phase := .idle
    env := { s.env with cmds := some w :: s.env.cmds, script := clearRst s.env.script } }

end Sys2Proof.Machine
end

