-- ==== Sys2Proof/Machine/Step.lean ====
section
/-! DEFINITION. One step of the machine: the environment's move, then a whole command from acceptance to response
(or until reset abandons it), or nothing if no word is accepted. -/

namespace Sys2Proof.Machine

/-- One step (10_state.md R27, R32; 30_encoding.md R86). -/
def step (s : State) : Host.Outcome State Fault Refusal :=
  match s.offer with
  | .reset t => .next t
  | .wait t => .next t
  | .command i t => exec i t

/-- The state in which the very next step accepts and runs the command word `w`: the host presents it on `cmd`. The
block stores no program (R27), so this is the one way a command comes to run. -/
def State.withFetchWord (s : State) (_nbits w : Nat) : State := s.present (BitVec.ofNat 36 w)

end Sys2Proof.Machine
end

