-- ==== Sys2Proof/Machine/Assembler.lean ====
section
/-! DEFINITION. The notation in which the spec writes a program, one line per command (30_encoding.md R97, R98), and
what a line assembles to. It is the spec's own and no part of the hardware: no command depends on it. -/

namespace Sys2Proof.Machine

/-- A line of R97. A `0` or `1` operand is a Boolean, a decimal or hexadecimal integer a natural number; the target of
`SETTGT` is a pattern or the decimal literal `digits / 10^scale` with its sign. -/
inductive Line where
  | setEn (b : Bool)
  | getEn
  | setDir (b : Bool)
  | setTgtPattern (p : Word)
  | setTgtDecimal (negative : Bool) (digits scale : Nat)
  | move (n : Nat)
  | step (u : Nat)
  | rdReg (u : Nat)
  | hasNext
  | getNext
  /-- a pseudo-instruction, an operand left out among them (R98) -/
  | pseudo (p : Pseudo)
deriving DecidableEq, Repr

/-- A decimal literal is "converted to binary32 by `rnd32` of its exact decimal value" (R97). -/
def decimalTarget (negative : Bool) (digits scale : Nat) : Word :=
  F32.rnd32 ((if negative then -(digits : Int) else digits) * 2 ^ 149) (10 ^ scale)

/-- The command a line stands for (R97, R98). Of the integer of `RDREG` only the low four bits are read: "`RDREG 0x13`
has `arg[3:0] = 3`" (43_rdreg.md R180), and "ignored operand bits are assembled as zero" (R97). -/
def Line.command : Line → Instr
  | .setEn b => .setEn b
  | .getEn => .getEn
  | .setDir b => .setDir (if b then .clockwise else .counterClockwise)
  | .setTgtPattern p => .setTgt p
  | .setTgtDecimal negative digits scale => .setTgt (decimalTarget negative digits scale)
  | .move n => .move n
  | .step u => .step u
  | .rdReg u => .rdReg (u % 16)
  | .hasNext => .hasNext
  | .getNext => .getNext
  | .pseudo p => p.expand

/-- An integer operand fits the 32 bits of `arg` (R81). -/
def Line.fits : Line → Bool
  | .move u | .step u | .rdReg u => fitsU u
  | .setEn _ | .getEn | .setDir _ | .setTgtPattern _ | .setTgtDecimal _ _ _ | .hasNext | .getNext | .pseudo _ => true

/-- The word a line assembles to (R97); none where an integer does not fit, of which R97 says nothing
(DESIGN CHOICE, log entry 14). -/
def Line.assemble (l : Line) : Option CmdWord := if l.fits then some (encode l.command) else none

end Sys2Proof.Machine
end

