-- ==== Sys2Proof/Safety.lean ====
section
/-! DEFINITION. The terms of the statements: runs in which no reset strikes, what a run shows, the bytes that are
pending, and the invariants of the machine (10_state.md R31, 42_motion.md R161, 70_reset_and_hazards.md R226). -/

namespace Sys2Proof.Machine

/-! ### The environment in statements -/

/-- No reset strikes from here on: the environment's script asserts `rst` in no move. -/
def Env.quiet (e : Env) : Bool := e.script.all fun m => !m.rst

/-- The bytes that arrive in the environment's next moves, as many as the count says, in order (R33). -/
def Env.arrivals : Env → Nat → List Byte
  | _, 0 => []
  | e, k + 1 => e.move.arrivals ++ e.pass.arrivals k

/-- `e'` is `e` after `k` moves in which the block took the bytes `taken` from the transport. The bytes taken, followed
by those that wait, are those that waited before, followed by the arrivals: none is lost, repeated or invented (R67,
R227). Time has not run backwards, and the host's list is the same. -/
structure Env.After (e : Env) (k : Nat) (taken : List Byte) (e' : Env) : Prop where
  tq : taken ++ e'.tq = e.tq ++ e.arrivals k
  time : e.time ≤ e'.time
  cmds : e'.cmds = e.cmds
  script : e'.script = e.script.drop k
  draw : e'.draw = e.draw + k

/-- `e'` is `e` some moves later, with nothing taken from the transport. -/
def Env.Later (e e' : Env) : Prop := ∃ k, e.After k [] e'

/-! ### What a run shows (00_scope.md R11) -/

/-- (a) the `PinWrite` events, in order. -/
def pinEvents (os : List Obs) : List (Pin × Bool × Word) :=
  os.filterMap fun
    | .pin p level time => some (p, level, time)
    | .response _ => none
    | .rxRead _ => none

/-- (b) the responses, in order. -/
def responses (os : List Obs) : List Response :=
  os.filterMap fun
    | .pin _ _ _ => none
    | .response r => some r
    | .rxRead _ => none

/-- (c) the bytes removed from the transport, in order. -/
def rxBytes (os : List Obs) : List Byte :=
  os.filterMap fun
    | .pin _ _ _ => none
    | .response _ => none
    | .rxRead b => some b

/-- The events of a train of step pulses, each given by its `T0` and its `E1`: high at `T0`, low at
`(T0 + E1) mod 2^32` (41_pulse.md R135). -/
def pulseTrain (ps : List (Word × Word)) : List Obs :=
  ps.flatMap fun p => [.pin .step true p.1, .pin .step false (p.1 + p.2)]

/-! ### The receive buffer -/

/-- `RXBUF[RDC .. FLC-1]`, the pending bytes, oldest first (10_state.md R30). -/
def State.pending (s : State) : List Byte :=
  (List.range (s.flc.toNat - s.rdc.toNat)).map fun j => s.bufRead (s.rdc.toNat + j)

/-- The rule of the cursors and of the cells between them (10_state.md R31), with the canonical form of the cells. -/
structure State.BufferRule (s : State) : Prop where
  ordered : s.rdc.toNat ≤ s.flc.toNat
  bounded : s.flc.toNat ≤ Config.cap
  emptied : s.rdc = s.flc → s.rdc = 0#6 ∧ s.flc = 0#6
  written : ∀ i, s.rdc.toNat ≤ i → i < s.flc.toNat → (s.rxbuf.read i).isSome
  canonical : s.rxbuf.wf

/-! ### Speeds, pins, phase -/

/-- A speed that `CUR` and `TGT` can hold: finite, of magnitude at most 65536, never the pattern of negative zero
(10_state.md R22, 42_motion.md R151, R161). -/
def legalSpeed (p : Word) : Bool :=
  F32.finite p && decide ((F32.val p).natAbs ≤ 65536 * 2 ^ 149) && p != 0x80000000#32

/-- Both speeds are legal (R161). -/
structure State.SpeedRule (s : State) : Prop where
  cur : legalSpeed s.cur
  tgt : legalSpeed s.tgt

/-- Between commands: the sequencer is idle, the step pin is low (R226), and the enable pin is the complement of the
flag (43_rdreg.md R181). -/
structure State.IdleRule (s : State) : Prop where
  phase : s.phase = .idle
  stepLow : s.pinStep = false
  mirror : s.pinEn = !s.en

/-- The open parameters are in their range (00_scope.md R7, 92_eei_decisions.md). -/
structure State.ParamRule (s : State) : Prop where
  spr : 1 ≤ s.params.spr.toNat
  tPace : 1 ≤ s.params.tPace.toNat

/-- What holds at every moment at which the sequencer is idle (R226). -/
structure State.Inv (s : State) : Prop where
  buffer : s.BufferRule
  speeds : s.SpeedRule
  idle : s.IdleRule
  params : s.ParamRule

/-! ### The arithmetic as R152 writes it, on rationals, to hold the model's rounding against -/

/-- `rnd32(x)` of 42_motion.md R152, word for word: `E = max(floor(log2(a)), -126)`, `u = 2^(E-23)`,
`m = floor(a / u)`, `r = a / u - m`, and the tie rule. -/
def specRnd32 (x : Rat) : Rat :=
  if x = 0 then 0
  else
    let a := |x|
    let u : Rat := 2 ^ (max (Int.log 2 a) (-126) - 23)
    let m := ⌊a / u⌋
    let r := a / u - m
    let m' := if 1 / 2 < r ∨ (r = 1 / 2 ∧ m % 2 = 1) then m + 1 else m
    (if x < 0 then -1 else 1) * m' * u

/-- `RampTick()` of R157 on values. -/
def specRampTick (c t : Rat) : Rat :=
  let delta := specRnd32 (t - c)
  if |delta| < 1 / 4 then t else specRnd32 (c + specRnd32 (delta / 5))

/-- `StepDuration()` of R158 on values. -/
def specStepDuration (c : Rat) (spr : Nat) : Int := ⌊specRnd32 (1000000 / specRnd32 (c * spr))⌋

end Sys2Proof.Machine
end

