-- ==== Sys2Proof/Certificates/Slice0/Obligations.lean ====
section
/-! DEFINITION. The statements for the provers. Each cites the rule of spec/ that it formalises. Where a statement
speaks of what a command leaves, it gives the whole next state as an update of the state before: every field that it
does not name is unchanged. `s.env.quiet` says that no reset is planned; the statements about reset do without it. The
spec lets the environment act between any two actions (R33, R227); the `env` of a next state says this in the model's
own form, moves that the environment makes one after the other (log entries 1 and 2), and no rule is cited for it. -/

open Sys2Proof Sys2Proof.Machine

/-! ### Encoding (30_encoding.md) -/

/-- R83, R84 and the vectors V1 to V11: words of the spec decode to the commands they stand for. -/
def Obligations.SpecWordsDecode : Prop :=
  decode 0x100000001#36 = .setEn true ∧ decode 0x1FFFFFFFE#36 = .setEn false ∧ decode 0x200000000#36 = .getEn ∧
  decode 0x300000001#36 = .setDir .clockwise ∧ decode 0x300000000#36 = .setDir .counterClockwise ∧
  decode 0x43F19999A#36 = .setTgt 0x3F19999A#32 ∧ decode 0x500000004#36 = .move 4 ∧
  decode 0x6000001F4#36 = .step 500 ∧ decode 0x700000013#36 = .rdReg 3 ∧ decode 0x8DEADBEEF#36 = .hasNext ∧
  decode 0x900000000#36 = .getNext ∧ decode 0x000000000#36 = .reserved0 ∧ decode 0xA00000000#36 = .reservedA ∧
  decode 0xB00000007#36 = .reservedB ∧ decode 0xF12345678#36 = .reservedF

/-- R80 to R82: no bit of an encoding is dropped, whatever the operands. -/
def Obligations.DecodeOfEncodeIsIdentity : Prop :=
  ∀ i : Instr, i.wf = true → decode (encode i) = i

/-- R85: two words decode to one command exactly when they differ only in bits that their format ignores, and every
word decodes to a well-formed command. -/
def Obligations.IgnoredOperandBitsAreNotDecoded : Prop :=
  (∀ w w' : CmdWord, decode w = decode w' ↔ usedBits w = usedBits w') ∧ (∀ w : CmdWord, (decode w).wf = true)

/-- R83 ("a word selects the row when `w & mask == match`") and the totality check of section 2 of
95_test_vectors.md: every word selects exactly one row of the opcode table, that of the command it decodes to. -/
def Obligations.EveryWordSelectsOneOpcodeRow : Prop :=
  ∀ w : CmdWord, (rowsOf w).map (·.mnemonic) = [(decode w).mnemonic]

/-- R87, R88, U14: where the response word holds its status and its data, the three codes, and that `0b11` is never a
status. -/
def Obligations.ResponseWordHoldsStatusAndData : Prop :=
  Status.ok.code = 0b00#2 ∧ Status.illegalOp.code = 0b01#2 ∧ Status.badOperand.code = 0b10#2 ∧
  ∀ r : Response, r.word.extractLsb' 32 2 = r.status.code ∧ r.word.extractLsb' 0 32 = r.data ∧
    r.status.code ≠ 0b11#2

/-- R98: what each pseudo-instruction expands to, and that `RAMP` is one ramp tick, no pulse, and `OK, 0` on either
side of the threshold. -/
def Obligations.PseudoInstructionsExpandToOneWord : Prop :=
  [Pseudo.moveDefault, .stepDefault, .ramp, .enable, .disable, .cw, .ccw].map (fun p => encode p.expand) =
    [0x500000001#36, 0x6000001F4#36, 0x500000000#36, 0x100000001#36, 0x100000000#36, 0x300000001#36,
      0x300000000#36] ∧
  ∀ s : State, s.env.quiet = true → ∃ w : Work,
    exec Pseudo.ramp.expand s = .next { s with
      cur := rampTick s.cur s.tgt, work := w, env := s.env.pass.pass, phase := .idle
      rsp := some ⟨.ok, 0#32⟩, obs := s.obs ++ [.response ⟨.ok, 0#32⟩] }

/-- R97, R98: the word of every line of the notation, and that it decodes to the line's command. An `R` operand above 15
loses its ignored bits ("Ignored operand bits are assembled as zero"), so `RDREG 0x13` is `RDREG 3` (R180). That a line
whose integer does not fit 32 bits assembles to nothing, and the notation as data, are the model's (log entry 14). -/
def Obligations.AssembledLineDecodesToItsCommand : Prop :=
  (∀ (l : Line) (w : CmdWord), l.assemble = some w → decode w = l.command) ∧
  (∀ l : Line, l.assemble.isSome = true ↔ ∀ n, l = .move n ∨ l = .step n ∨ l = .rdReg n → n < 2 ^ 32) ∧
  [Line.setEn true, .setEn false, .getEn, .setDir true, .setDir false, .hasNext, .getNext].map Line.assemble =
    [some 0x100000001#36, some 0x100000000#36, some 0x200000000#36, some 0x300000001#36, some 0x300000000#36,
      some 0x800000000#36, some 0x900000000#36] ∧
  (∀ p : Word, (Line.setTgtPattern p).assemble = some (0x4#4 ++ p)) ∧
  (∀ u : Word, (Line.move u.toNat).assemble = some (0x5#4 ++ u) ∧ (Line.step u.toNat).assemble = some (0x6#4 ++ u) ∧
    (Line.rdReg u.toNat).assemble = some (0x7#4 ++ (u &&& 0xF#32))) ∧
  (Line.rdReg 0x13).command = .rdReg 3 ∧
  (∀ (d k : Nat), (Line.setTgtDecimal false d k).assemble = some (0x4#4 ++ F32.rnd32 (d * 2 ^ 149) (10 ^ k)) ∧
    (Line.setTgtDecimal true d k).assemble = some (0x4#4 ++ F32.rnd32 (-d * 2 ^ 149) (10 ^ k))) ∧
  (Line.setTgtDecimal false 10 1).assemble = some 0x43F800000#36 ∧
  (Line.setTgtDecimal false 6 1).assemble = some 0x43F19999A#36 ∧
  ∀ p : Pseudo, (Line.pseudo p).command = p.expand

/-! ### Steps (30_encoding.md R86, 70_reset_and_hazards.md R210) -/

/-- R86: a step in which a word is presented to an idle block, and no reset strikes, latches the word and runs the
command it decodes to. Around it the step makes one move of the environment and takes the old response off the port.
That one step is a whole command is the model's choice (log entry 1). -/
def Obligations.StepRunsThePresentedCommand : Prop :=
  ∀ (s : State) (w : CmdWord), s.env.struck = false → s.phase = .idle → s.env.cmds.head? = some (some w) →
    step s = exec (decode w) { s with
      rsp := none, phase := .exec
      work := { s.work with opc := w.extractLsb' 32 4, arg := w.extractLsb' 0 32 }
      env := { s.env.pass with cmds := s.env.cmds.tail } }

/-- The model's choice (log entry 5): a word placed with `withFetchWord` is the command of the very next step. -/
def Obligations.PlacedWordRunsNext : Prop :=
  ∀ (s : State) (nbits w : Nat),
    (s.withFetchWord nbits w).env.struck = false ∧
    step (s.withFetchWord nbits w) = exec (decode (BitVec.ofNat 36 w))
      ((s.withFetchWord nbits w).beforePort.accept (opField (BitVec.ofNat 36 w)) (argField (BitVec.ofNat 36 w)))

/-- R86, R227 ("with any gap"): without a word on the port nothing is accepted, and the step is one move of the
environment; a step for which the host planned no word is then over. While the sequencer is not idle the port is not
looked at: R86 says no more, and that a step which begins in `EXEC` is one such move, the word staying presented, is
the model's choice of a state that no run reaches (log entry 11). -/
def Obligations.BusyOrUnofferedStepOnlyLetsTimePass : Prop :=
  (∀ s : State, s.env.struck = false → s.phase = .exec ∨ s.env.cmds = [] →
    step s = .next { s with rsp := none, env := s.env.pass }) ∧
  ∀ s : State, s.env.struck = false → s.phase = .idle → s.env.cmds.head? = some none →
    step s = .next { s with rsp := none, env := { s.env.pass with cmds := s.env.cmds.tail } }

/-- R227, R33: the host may present a word "with any gap", time may advance "by any amount" before it and any bytes may
arrive meanwhile: for every gap and all bytes the environment has a move in which just that happens, and then the word
is accepted. -/
def Obligations.AnyGapAndAnyArrivalsBeforeACommand : Prop :=
  ∀ (s : State) (gap : Nat) (bs : List Byte) (ms : List EnvMove) (w : CmdWord) (ws : List (Option CmdWord)),
    s.phase = .idle → s.env.cmds = some w :: ws → s.env.script = ⟨gap, bs, false⟩ :: ms →
    step s = exec (decode w) { s with
      rsp := none, phase := .exec
      work := { s.work with opc := w.extractLsb' 32 4, arg := w.extractLsb' 0 32 }
      env := { tq := s.env.tq ++ bs, time := s.env.time + gap, cmds := ws, script := ms, draw := s.env.draw + 1 } }

/-- R210, R211, R35: reset between commands puts every element of the block at its reset value, accepts no word and
leaves the environment's own state, the parameters and the record alone. That no cell is listed afterwards is the
model's form of unspecified contents (log entry 4). -/
def Obligations.ResetBetweenCommands : Prop :=
  ∀ s : State, s.env.struck = true → step s = .next
    { cur := 0x00000000#32, tgt := 0x00000000#32, en := false, pinEn := true, pinDir := false, pinStep := false
      dur := 0#32, rxbuf := [], rdc := 0#6, flc := 0#6, phase := .idle
      work := { opc := 0#4, arg := 0#32, t0 := 0#32, e1 := 0#32, rem := 0#32, nleft := 0#32 }
      rsp := none, params := s.params, env := s.env.pass, obs := s.obs }

/-- R35, R7: the values the spec gives for reset, and what the status window then reads (R181). -/
def Obligations.ResetStateHoldsTheSpecsValues : Prop :=
  State.reset.cur = 0x00000000#32 ∧ State.reset.tgt = 0x00000000#32 ∧ State.reset.en = false ∧
  State.reset.pinEn = true ∧ State.reset.pinDir = false ∧ State.reset.pinStep = false ∧ State.reset.dur = 0#32 ∧
  State.reset.rdc = 0#6 ∧ State.reset.flc = 0#6 ∧ State.reset.phase = .idle ∧ State.reset.params.spr = 200#16 ∧
  [0, 1, 2, 3, 4, 5].map State.reset.statusWord =
    [some 0x00000000#32, some 0x00000000#32, some 0x00000002#32, some 0x00000000#32, some 0x000000C8#32,
      some 0x00000000#32]

/-- R212, R135: a reset in the first wait of a pulse leaves the rising edge as the last observation, no response, and
the step pin low. -/
def Obligations.ResetCutsAPulseInItsHighPhase : Prop :=
  ∀ (s : State) (m m' : EnvMove) (ms : List EnvMove) (u : Nat),
    s.env.script = m :: m' :: ms → m.rst = false → m'.rst = true →
    exec (.step u) s = .next { State.reset with
      params := s.params, env := s.env.pass.pass
      obs := s.obs ++ [.pin .step true s.env.pass.now] }

/-- R212, R86, U15: a command ends answered, with exactly one response after all else, or reset has abandoned it: then
the block is in its reset state and no response was given. Either way the bytes it took are exactly those that have
left the transport: after a reset they are in no cell and not back in `TQ`, they are lost. -/
def Obligations.CommandEndsAnsweredOrReset : Prop :=
  ∀ (i : Instr) (s t : State), exec i s = .next t → ∃ (k : Nat) (os : List Obs),
    s.env.After k (rxBytes os) t.env ∧ responses os = [] ∧
    ((∃ r, t.rsp = some r ∧ t.phase = .idle ∧ t.obs = s.obs ++ os ++ [.response r]) ∨
      (t = { State.reset with params := s.params, env := t.env, obs := s.obs ++ os }))

/-! ### Pulse Driver (41_pulse.md) -/

/-- R131: `SETEN b` drives the pin to the active-low level and records the flag, in one action, and nothing else. The
stamp of the event, `now` at the action, is the model's reading (log entry 17): R131 takes no `Now()` sample. -/
def Obligations.SetEnDrivesPinAndRecordsFlag : Prop :=
  (∀ w : CmdWord, opField w = 0x1#4 → decode w = .setEn (w.getLsbD 0)) ∧
  ∀ (b : Bool) (s : State), s.env.quiet = true →
    exec (.setEn b) s = .next { s with
      pinEn := !b, en := b, env := s.env.pass.pass, phase := .idle, rsp := some ⟨.ok, 0#32⟩
      obs := s.obs ++ [.pin .en (!b) s.env.pass.now, .response ⟨.ok, 0#32⟩] }

/-- R132: `GETEN` answers the last value set, from the register and never from the pin, and writes nothing. -/
def Obligations.GetEnAnswersTheFlag : Prop :=
  (∀ w : CmdWord, opField w = 0x2#4 → decode w = .getEn) ∧
  ∀ s : State, s.env.quiet = true →
    exec .getEn s = .next { s with
      env := s.env.pass, phase := .idle, rsp := some ⟨.ok, if s.en then 1#32 else 0#32⟩
      obs := s.obs ++ [.response ⟨.ok, if s.en then 1#32 else 0#32⟩] }

/-- R133: `SETDIR d` drives the direction pin, high for clockwise, and writes nothing else. The stamp of the event,
`now` at the action, is the model's reading (log entry 17): R133 takes no `Now()` sample. -/
def Obligations.SetDirDrivesThePin : Prop :=
  (∀ w : CmdWord, opField w = 0x3#4 →
    decode w = .setDir (if w.getLsbD 0 then .clockwise else .counterClockwise)) ∧
  ∀ (d : Direction) (s : State), s.env.quiet = true →
    exec (.setDir d) s = .next { s with
      pinDir := decide (d = .clockwise), env := s.env.pass.pass, phase := .idle, rsp := some ⟨.ok, 0#32⟩
      obs := s.obs ++ [.pin .dir (decide (d = .clockwise)) s.env.pass.now, .response ⟨.ok, 0#32⟩] }

/-- R134, R135: `STEP u` emits exactly one high-then-low transition. The high phase `e1` is at least `u / 2`, the
second wait `e2` at least the rest, clamped at zero; `DUR` takes `u`; the falling edge is stamped with the sample that
ended the first wait. The two gaps are time that passes before the pulse and before the response. -/
def Obligations.StepEmitsOneSelfCorrectingPulse : Prop :=
  (∀ w : CmdWord, opField w = 0x6#4 → decode w = .step (argField w).toNat) ∧
  ∀ (u : Nat) (s : State), u < 2 ^ 32 → s.env.quiet = true →
    ∃ gap gap' : Nat, ∃ t0 e1 rem e2 : Word, ∃ e : Env,
      exec (.step u) s = .next { s with
        dur := BitVec.ofNat 32 u, pinStep := false, env := e, phase := .idle, rsp := some ⟨.ok, 0#32⟩
        work := { s.work with t0 := t0, e1 := e1, rem := rem }
        obs := s.obs ++ [.pin .step true t0, .pin .step false (t0 + e1), .response ⟨.ok, 0#32⟩] } ∧
      t0 = BitVec.ofNat 32 (s.env.time + gap) ∧ u / 2 ≤ e1.toNat ∧ rem.toNat = u - e1.toNat ∧
      rem.toNat ≤ e2.toNat ∧ e.time = s.env.time + gap + e1.toNat + e2.toNat + gap' ∧ s.env.Later e

/-- R136, U2: `WaitFrom(t, d)` returns a sample of at least `d`, never less than what has elapsed, "and nothing
more": some move of the environment gives every such sample. -/
def Obligations.WaitEndsAtAnySampleFromItsBound : Prop :=
  ∀ (e : Env) (t d : Word),
    d ≤ e.waitSample t d ∧ e.elapsed t ≤ e.waitSample t d ∧ (e.waitFrom t d).elapsed t = e.waitSample t d ∧
    ∀ x : Word, d ≤ x → e.elapsed t ≤ x →
      ∃ m : EnvMove, ({ e with script := m :: e.script } : Env).waitSample t d = x

/-- R138, U2, U7: every pair of draws at or above the bounds of the two waits is the pulse of some environment. -/
def Obligations.EveryJitterOfAPulseIsAdmitted : Prop :=
  ∀ (s : State) (u : Nat) (e1 e2 : Word), u < 2 ^ 32 → u / 2 ≤ e1.toNat → u - e1.toNat ≤ e2.toNat →
    ∃ ms : List EnvMove, ∃ t : State,
      exec (.step u) { s with env := { s.env with script := ms } } = .next t ∧
      t.obs = s.obs ++
        [.pin .step true s.env.now, .pin .step false (s.env.now + e1), .response ⟨.ok, 0#32⟩] ∧
      t.env.time = s.env.time + e1.toNat + e2.toNat

/-- R138 (c): an overshoot `x` of the first half is absorbed by the second: where the second wait is exact the pulse
lasts exactly `u`, whatever `x` is. -/
def Obligations.FirstHalfOvershootIsAbsorbed : Prop :=
  ∀ (s : State) (u x : Nat) (b0 b1 b2 b3 : List Byte) (ms : List EnvMove), u < 2 ^ 32 → u / 2 + x < u →
    s.env.script = ⟨0, b0, false⟩ :: ⟨x, b1, false⟩ :: ⟨0, b2, false⟩ :: ⟨0, b3, false⟩ :: ms →
    ∃ t : State, exec (.step u) s = .next t ∧
      t.obs = s.obs ++ [.pin .step true s.env.now,
        .pin .step false (s.env.now + BitVec.ofNat 32 (u / 2 + x)), .response ⟨.ok, 0#32⟩] ∧
      t.env.time = s.env.time + u

/-- R139: neither `STEP` nor `MOVE` reads `EN` or `PIN_EN`: with any values in them the command does the same. -/
def Obligations.EnableNeverGatesPulses : Prop :=
  ∀ (i : Instr) (s t : State) (b c : Bool), ((∃ u, i = .step u) ∨ ∃ n, i = .move n) → s.env.quiet = true →
    exec i s = .next t →
    exec i { s with en := b, pinEn := c } = .next { t with en := b, pinEn := c }

/-! ### Motion Controller (42_motion.md) -/

/-- R155: `SETTGT` refuses exponent field 255 and a magnitude pattern above 65536.0 and then changes nothing; else it
records the target, negative zero as +0, and `CUR` is not touched. -/
def Obligations.SetTgtRecordsOrRefuses : Prop :=
  (∀ w : CmdWord, opField w = 0x4#4 → decode w = .setTgt (w.extractLsb' 0 32)) ∧
  ∀ (p : Word) (s : State), s.env.quiet = true →
    ((p.extractLsb' 23 8 = 0xFF#8 ∨ 0x47800000 < (p.extractLsb' 0 31).toNat) →
      exec (.setTgt p) s = .next { s with
        env := s.env.pass, phase := .idle, rsp := some ⟨.badOperand, 0#32⟩
        obs := s.obs ++ [.response ⟨.badOperand, 0#32⟩] }) ∧
    (p.extractLsb' 23 8 ≠ 0xFF#8 → (p.extractLsb' 0 31).toNat ≤ 0x47800000 →
      exec (.setTgt p) s = .next { s with
        tgt := if p = 0x80000000#32 then 0x00000000#32 else p
        env := s.env.pass.pass, phase := .idle, rsp := some ⟨.ok, 0#32⟩
        obs := s.obs ++ [.response ⟨.ok, 0#32⟩] })

/-- R85, R155, R161: what `SETTGT` accepts is exactly the finite patterns of magnitude at most 65536, and what it
stores is a legal speed ("pattern order = value order for finite patterns"). -/
def Obligations.TargetAcceptedExactlyWhenInRange : Prop :=
  ∀ p : Word,
    (targetRefused p = false ↔ F32.finite p = true ∧ (F32.val p).natAbs ≤ 65536 * 2 ^ 149) ∧
    (targetRefused p = false → legalSpeed (targetStored p) = true)

/-- R156: `MOVE n` does one ramp tick; at or below 0.5 it does nothing more and answers 0; above 0.5 it emits exactly
`n` pulses of the one duration of R158, in at least `n` times that duration, and answers `n`. -/
def Obligations.MovePulsesOnlyAboveTheThreshold : Prop :=
  (∀ w : CmdWord, opField w = 0x5#4 → decode w = .move (argField w).toNat) ∧
  ∀ (n : Nat) (s : State), n < 2 ^ 32 → s.env.quiet = true →
    (F32.toRat (rampTick s.cur s.tgt) ≤ 1 / 2 →
      exec (.move n) s = .next { s with
        cur := rampTick s.cur s.tgt, env := s.env.pass.pass, phase := .idle, rsp := some ⟨.ok, 0#32⟩
        obs := s.obs ++ [.response ⟨.ok, 0#32⟩] }) ∧
    (1 / 2 < F32.toRat (rampTick s.cur s.tgt) →
      ∃ ps : List (Word × Word), ∃ w : Work, ∃ e : Env,
        exec (.move n) s = .next { s with
          cur := rampTick s.cur s.tgt
          dur := if n = 0 then s.dur else stepDuration (rampTick s.cur s.tgt) s.params.spr
          pinStep := if n = 0 then s.pinStep else false
          work := w, env := e, phase := .idle, rsp := some ⟨.ok, BitVec.ofNat 32 n⟩
          obs := s.obs ++ pulseTrain ps ++ [.response ⟨.ok, BitVec.ofNat 32 n⟩] } ∧
        ps.length = n ∧
        (∀ p ∈ ps, (stepDuration (rampTick s.cur s.tgt) s.params.spr).toNat / 2 ≤ p.2.toNat) ∧
        s.env.time + n * (stepDuration (rampTick s.cur s.tgt) s.params.spr).toNat ≤ e.time ∧ s.env.Later e)

/-- R135, R156, R138 (c), program P1: where every move of the environment is ideal (no time passes in a gap, every
wait ends at its bound) the `k`-th pulse rises at `k` durations and falls half a duration later, and the command lasts
`n` durations. -/
def Obligations.MoveOnTheIdealTimeBase : Prop :=
  ∀ (n : Nat) (s : State) (d : Word) (ms : List EnvMove),
    s.env.script = List.replicate (3 * n + 2) ⟨0, [], false⟩ ++ ms →
    aboveThreshold (rampTick s.cur s.tgt) = true → d = stepDuration (rampTick s.cur s.tgt) s.params.spr →
    ∃ t : State, exec (.move n) s = .next t ∧ t.env.time = s.env.time + n * d.toNat ∧
      t.obs = s.obs ++ pulseTrain ((List.range n).map fun k => (s.env.now + BitVec.ofNat 32 (k * d.toNat), d >>> 1)) ++
        [.response ⟨.ok, BitVec.ofNat 32 n⟩]

/-- R157: on legal speeds the ramp tick is the rule's: the snap copies the target, else a fifth of the gap is added,
each operation the exact result rounded once; `CUR` never becomes the pattern of negative zero. -/
def Obligations.RampTickIsTheRoundedRecurrence : Prop :=
  ∀ c t : Word, legalSpeed c = true → legalSpeed t = true →
    F32.toRat (rampTick c t) = specRampTick (F32.toRat c) (F32.toRat t) ∧
    (snaps (rampDelta c t) = true → rampTick c t = t) ∧ rampTick c t ≠ 0x80000000#32

/-- R157 corner case 3: the snap test on the rounded gap holds exactly when the exact gap is below `0.25 - 2^-27`. -/
def Obligations.SnapTestOnTheRoundedGap : Prop :=
  ∀ c t : Word, legalSpeed c = true → legalSpeed t = true →
    (snaps (rampDelta c t) = true ↔ |F32.toRat t - F32.toRat c| < 1 / 4 - 1 / 2 ^ 27)

/-- R158: above the threshold the step duration is the rule's, multiply, divide, each rounded once, then truncated,
and it is below 2000000 microseconds. -/
def Obligations.StepDurationIsTheTruncatedQuotient : Prop :=
  ∀ (c : Word) (spr : BitVec 16), legalSpeed c = true → 1 / 2 < F32.toRat c → 1 ≤ spr.toNat →
    ((stepDuration c spr).toNat : Int) = specStepDuration (F32.toRat c) spr.toNat ∧
    (stepDuration c spr).toNat < 2000000

/-- R152: inside its domain the model's rounding is the algorithm of the rule, on the exact rational. -/
def Obligations.RoundingIsTheAlgorithmOfR152 : Prop :=
  ∀ (num : Int) (den : Nat), den ≠ 0 → |(num : Rat) / den / 2 ^ 149| < 2 ^ 127 →
    F32.toRat (F32.rnd32 num den) = specRnd32 ((num : Rat) / den / 2 ^ 149)

/-- R152: rounding is monotone. -/
def Obligations.RoundingIsMonotone : Prop :=
  ∀ (a b : Int) (d e : Nat), F32.inDomain a d = true → F32.inDomain b e = true → a * e ≤ b * d →
    F32.val (F32.rnd32 a d) ≤ F32.val (F32.rnd32 b e)

/-- R151, R152: rounding is the identity on representable values, and `enc` is unique: the pattern comes back. -/
def Obligations.RoundingFixesRepresentableValues : Prop :=
  ∀ p : Word, F32.finite p = true → p ≠ 0x80000000#32 → (F32.val p).natAbs < 2 ^ 276 →
    F32.rnd32 (F32.val p) 1 = p

/-- R152: rounding is odd. -/
def Obligations.RoundingIsOdd : Prop :=
  ∀ (num : Int) (den : Nat), F32.inDomain num den = true →
    F32.val (F32.rnd32 (-num) den) = -F32.val (F32.rnd32 num den)

/-- R152: the relative error of a normal result is at most 2^-24. -/
def Obligations.RelativeErrorOfARoundingIsAtMostTwoToTheMinus24 : Prop :=
  ∀ (num : Int) (den : Nat), F32.inDomain num den = true → 1 / 2 ^ 126 ≤ |(num : Rat) / den / 2 ^ 149| →
    |F32.toRat (F32.rnd32 num den) - (num : Rat) / den / 2 ^ 149| ≤ |(num : Rat) / den / 2 ^ 149| / 2 ^ 24

/-- R159: the ramp approaches the target strictly and never passes it, and it lands on the target exactly in the snap
branch. -/
def Obligations.RampApproachesAndNeverOvershoots : Prop :=
  ∀ c t : Word, legalSpeed c = true → legalSpeed t = true →
    (F32.val c < F32.val t → F32.val c < F32.val (rampTick c t) ∧ F32.val (rampTick c t) ≤ F32.val t) ∧
    (F32.val t < F32.val c → F32.val t ≤ F32.val (rampTick c t) ∧ F32.val (rampTick c t) < F32.val c) ∧
    (F32.val c = F32.val t → F32.val (rampTick c t) = F32.val t) ∧
    (F32.val (rampTick c t) = F32.val t ↔ snaps (rampDelta c t) = true)

/-- R160: with a constant target every legal speed is at the target after 61 ticks, and stays there. -/
def Obligations.RampSettlesWithinSixtyOneTicks : Prop :=
  ∀ (c t : Word) (k : Nat), legalSpeed c = true → legalSpeed t = true → 61 ≤ k →
    (fun x => rampTick x t)^[k] c = t

/-- R161: no step takes a speed out of the range. -/
def Obligations.SpeedsStayInRange : Prop :=
  State.reset.SpeedRule ∧ ∀ s t : State, s.SpeedRule → step s = .next t → t.SpeedRule

/-- R162: with target and speed at or below 0.5 a `MOVE` never pulses, and the speed stays there; with both above 0.5
it pulses `n` times, and the speed stays above. -/
def Obligations.ThresholdGatesAWholeRamp : Prop :=
  ∀ (n : Nat) (s : State), n < 2 ^ 32 → s.env.quiet = true → s.SpeedRule →
    (F32.toRat s.tgt ≤ 1 / 2 → F32.toRat s.cur ≤ 1 / 2 →
      ∃ t : State, exec (.move n) s = .next t ∧ t.rsp = some ⟨.ok, 0#32⟩ ∧ pinEvents t.obs = pinEvents s.obs ∧
        F32.toRat t.cur ≤ 1 / 2) ∧
    (1 / 2 < F32.toRat s.tgt → 1 / 2 < F32.toRat s.cur →
      ∃ t : State, exec (.move n) s = .next t ∧ t.rsp = some ⟨.ok, BitVec.ofNat 32 n⟩ ∧
        (pinEvents t.obs).length = (pinEvents s.obs).length + 2 * n ∧ 1 / 2 < F32.toRat t.cur)

/-! ### Line Receive Buffer (40_rxfifo.md, 20_memory.md) -/

/-- R111 corner case 1: with bytes pending `HASNEXT` answers 1 with no transport access and no other effect. -/
def Obligations.HasNextWithBytesPending : Prop :=
  (∀ w : CmdWord, opField w = 0x8#4 → decode w = .hasNext) ∧
  ∀ s : State, s.env.quiet = true → s.rdc ≠ s.flc →
    exec .hasNext s = .next { s with
      env := s.env.pass, phase := .idle, rsp := some ⟨.ok, 1#32⟩, obs := s.obs ++ [.response ⟨.ok, 1#32⟩] }

/-- R111, R114, R116: with an empty buffer `HASNEXT` drains. It takes, in order, bytes that waited or arrived, each
seen by the sample before it, stores them from the fill cursor up, touches no other cell, and stops at a sample that
finds the transport empty or with the buffer full; what is left, and what arrives before the response, stays in the
transport. It answers 1 if it took a byte, else 0. That a pass is three moves of the environment, and the last sample
and the response one each, is the model's form (log entries 1 and 2). -/
def Obligations.HasNextDrainsAnEmptyBuffer : Prop :=
  ∀ s : State, s.env.quiet = true → s.rdc = s.flc → s.flc.toNat ≤ 32 →
    ∃ taken left : List Byte, ∃ m : Memory, ∃ w : Work, ∃ e : Env,
      exec .hasNext s = .next { s with
        rxbuf := m, flc := s.flc + BitVec.ofNat 6 taken.length, work := w, env := e, phase := .idle
        rsp := some ⟨.ok, if taken = [] then 0#32 else 1#32⟩
        obs := s.obs ++ taken.map .rxRead ++ [.response ⟨.ok, if taken = [] then 0#32 else 1#32⟩] } ∧
      s.env.After (3 * taken.length + 2) taken e ∧
      taken ++ left = s.env.tq ++ s.env.arrivals (3 * taken.length + 1) ∧
      (∀ j < taken.length, j < (s.env.tq ++ s.env.arrivals (3 * j + 1)).length) ∧
      s.flc.toNat + taken.length ≤ 32 ∧ (left = [] ∨ s.flc.toNat + taken.length = 32) ∧
      (∀ j, (hj : j < taken.length) → m.read (s.flc.toNat + j) = some taken[j]) ∧
      (∀ i, i < s.flc.toNat ∨ s.flc.toNat + taken.length ≤ i → m.read i = s.rxbuf.read i) ∧
      s.env.time + taken.length * s.params.tPace.toNat ≤ e.time

/-- R111, R114: `HASNEXT` on equal cursors is the drain and its answer. A pass of the drain whose sample finds a byte,
with room for it, appends that one byte, takes `T0` after it, pauses at least `T_PACE_US` from `T0`, and only then
goes on; a pass whose sample finds none, or no room, is the last and only lets time pass. -/
def Obligations.DrainAppendsAByteThenPauses : Prop :=
  (∀ s : State, s.rdc = s.flc → exec .hasNext s = ((State.drainLoop 33 s).andThen fun u =>
    u.respond .ok (if u.rdc = u.flc then 0#32 else 1#32)).outcome) ∧
  ∀ (n : Nat) (s : State), s.env.quiet = true →
    (∀ (b : Byte) (rest : List Byte), s.env.tq ++ s.env.move.arrivals = b :: rest → s.flc.toNat < 32 →
      ∃ t0 : Nat, ∃ e : Env,
        State.drainLoop (n + 1) s = State.drainLoop n { s with
          rxbuf := s.rxbuf.write s.flc.toNat b, flc := s.flc + 1, env := e
          work := { s.work with t0 := BitVec.ofNat 32 t0 }
          obs := s.obs ++ [.rxRead b] } ∧
        s.env.After 3 [b] e ∧ s.env.time + s.env.move.advance ≤ t0 ∧ t0 + s.params.tPace.toNat ≤ e.time) ∧
    (s.env.tq ++ s.env.move.arrivals = [] ∨ 32 ≤ s.flc.toNat →
      State.drainLoop (n + 1) s = .running { s with env := s.env.pass })

/-- R112: `GETNEXT` on an empty buffer answers the sentinel and writes nothing; else it removes and returns the oldest
byte, and the removal of the last one resets both cursors. It never touches the transport or a cell. -/
def Obligations.GetNextRemovesTheOldestByte : Prop :=
  (∀ w : CmdWord, opField w = 0x9#4 → decode w = .getNext) ∧
  ∀ s : State, s.env.quiet = true →
    (s.rdc = s.flc → exec .getNext s = .next { s with
      env := s.env.pass, phase := .idle, rsp := some ⟨.ok, 0#32⟩, obs := s.obs ++ [.response ⟨.ok, 0#32⟩] }) ∧
    (s.rdc ≠ s.flc → s.rdc.toNat < 32 → ∃ b : Byte,
      (∀ b' : Byte, s.rxbuf.read s.rdc.toNat = some b' → b = b') ∧
      exec .getNext s = .next { s with
        rdc := if s.rdc + 1 = s.flc then 0#6 else s.rdc + 1
        flc := if s.rdc + 1 = s.flc then 0#6 else s.flc
        env := s.env.pass.pass, phase := .idle, rsp := some ⟨.ok, b.zeroExtend 32⟩
        obs := s.obs ++ [.response ⟨.ok, b.zeroExtend 32⟩] })

/-- R61: `BufRead(i)` requires an index of at most 31. With bytes pending and the read cursor above it the machine
stops (the model's choice, log entry 8), and that is the only way any command stops (R190: the block raises no
exception). -/
def Obligations.OnlyAnIndexOutsideTheBufferStops : Prop :=
  (∀ s : State, s.rdc ≠ s.flc → 32 ≤ s.rdc.toNat → exec .getNext s = .fault .bufferIndexOutOfRange) ∧
  (∀ (i : Instr) (s : State) (f : Fault), exec i s = .fault f → i = .getNext ∧ s.rdc ≠ s.flc ∧ 32 ≤ s.rdc.toNat) ∧
  (∀ (i : Instr) (s : State) (r : Refusal), exec i s ≠ .refused r)

/-- R31: the rule of the cursors and of the pending cells, with the canonical form of the cells, holds after reset and
is kept by every step. -/
def Obligations.CursorRuleIsKept : Prop :=
  State.reset.BufferRule ∧ ∀ s t : State, s.BufferRule → step s = .next t → t.BufferRule

/-- R115, R67, R62: no byte is lost, duplicated or reordered. Pending bytes followed by the transport's form one
stream; a `GETNEXT` with bytes pending answers its head and drops it, every other command takes nothing from it, and at
its tail exactly the bytes are appended that arrive in the moves the environment makes meanwhile. -/
def Obligations.BytesFlowInOrder : Prop :=
  ∀ (i : Instr) (s t : State), s.env.quiet = true → s.BufferRule → exec i s = .next t →
    ∃ k : Nat, t.env.draw = s.env.draw + k ∧ t.env.script = s.env.script.drop k ∧
      (i ≠ .getNext ∨ s.pending = [] → t.pending ++ t.env.tq = s.pending ++ s.env.tq ++ s.env.arrivals k) ∧
      (∀ (b : Byte) (bs : List Byte), i = .getNext → s.pending = b :: bs →
        t.rsp = some ⟨.ok, b.zeroExtend 32⟩ ∧ t.pending ++ t.env.tq = bs ++ s.env.tq ++ s.env.arrivals k)

/-- R67, R111, R216: only `HASNEXT` on an empty buffer reads the transport; during every other command what waits and
what arrives stays in it. -/
def Obligations.OnlyADrainReadsTheTransport : Prop :=
  ∀ (i : Instr) (s t : State), s.env.quiet = true → i ≠ .hasNext ∨ s.rdc ≠ s.flc → exec i s = .next t →
    rxBytes t.obs = rxBytes s.obs ∧ s.env.Later t.env

/-! ### Status read and reserved opcodes (43_rdreg.md) -/

/-- R180, R181: `RDREG idx` answers the word of the status window, every bit of it, for `idx` at most 5, refuses the
reserved indices, and writes nothing; between commands bit 1 of `SR_FLAGS` is the complement of bit 0, and bit 3
is 0. Last, the words' reset values. -/
def Obligations.RdRegAnswersTheStatusWindow : Prop :=
  (∀ w : CmdWord, opField w = 0x7#4 → decode w = .rdReg (w.extractLsb' 0 4).toNat) ∧
  ∀ s : State, s.env.quiet = true →
    (∀ idx, 6 ≤ idx → exec (.rdReg idx) s = .next { s with
      env := s.env.pass, phase := .idle, rsp := some ⟨.badOperand, 0#32⟩
      obs := s.obs ++ [.response ⟨.badOperand, 0#32⟩] }) ∧
    (∀ idx, idx ≤ 5 → ∃ w : Word,
      exec (.rdReg idx) s = .next { s with
        env := s.env.pass, phase := .idle, rsp := some ⟨.ok, w⟩, obs := s.obs ++ [.response ⟨.ok, w⟩] } ∧
      (idx = 0 → w = s.cur) ∧ (idx = 1 → w = s.tgt) ∧
      (idx = 2 → w.getLsbD 0 = s.en ∧ w.getLsbD 1 = s.pinEn ∧ w.getLsbD 2 = s.pinDir ∧ w.getLsbD 3 = s.pinStep ∧
        w.extractLsb' 4 28 = 0#28 ∧ (s.IdleRule → w.getLsbD 1 = !w.getLsbD 0 ∧ w.getLsbD 3 = false)) ∧
      (idx = 3 → w.extractLsb' 0 6 = s.rdc ∧ w.extractLsb' 6 2 = 0#2 ∧ w.extractLsb' 8 6 = s.flc ∧
        w.extractLsb' 14 18 = 0#18) ∧
      (idx = 4 → w.extractLsb' 0 16 = s.params.spr ∧ w.extractLsb' 16 16 = 0#16) ∧
      (idx = 5 → w = s.dur)) ∧
    [0, 1, 2, 3, 4, 5].map State.reset.statusWord =
      [some 0x00000000#32, some 0x00000000#32, some 0x00000002#32, some 0x00000000#32, some 0x000000C8#32,
        some 0x00000000#32]

/-- R182, R84: the seven reserved opcodes answer `ILLEGAL_OP, 0` whatever their operand, and change nothing. -/
def Obligations.ReservedOpcodesAnswerIllegalOp : Prop :=
  (∀ w : CmdWord, (decode w).isReserved = true ↔
    opField w ∈ [0x0#4, 0xA#4, 0xB#4, 0xC#4, 0xD#4, 0xE#4, 0xF#4]) ∧
  ∀ (i : Instr) (s : State), i.isReserved = true → s.env.quiet = true →
    exec i s = .next { s with
      env := s.env.pass, phase := .idle, rsp := some ⟨.illegalOp, 0#32⟩
      obs := s.obs ++ [.response ⟨.illegalOp, 0#32⟩] }

/-! ### Whole-machine rules -/

/-- R86, R190, R226: every command, in a state whose cursors meet their rule and with no reset planned, reaches its
response: exactly one, after all its effects. -/
def Obligations.EveryCommandAnswersExactlyOnce : Prop :=
  ∀ (i : Instr) (s : State), s.env.quiet = true → s.BufferRule →
    ∃ t r os, exec i s = .next t ∧ t.rsp = some r ∧ t.phase = .idle ∧
      t.obs = s.obs ++ os ++ [.response r] ∧ responses os = []

/-- R20 to R26, R30, R218: each element of the block has its one writer. `CUR` changes by one ramp tick of `MOVE` and
never otherwise, `TGT` by `SETTGT`, `EN` and `PIN_EN` by `SETEN`, `PIN_DIR` by `SETDIR`, `PIN_STEP` and `DUR` by `STEP`
and `MOVE`, the cells by `HASNEXT`, `RDC` by `GETNEXT`, `FLC` by those two, the parameters by none. -/
def Obligations.EachRegisterHasItsOneWriter : Prop :=
  ∀ (i : Instr) (s t : State), s.env.quiet = true → exec i s = .next t →
    (∀ n, i = .move n → t.cur = rampTick s.cur s.tgt) ∧ ((∀ n, i ≠ .move n) → t.cur = s.cur) ∧
    ((∀ p, i ≠ .setTgt p) → t.tgt = s.tgt) ∧
    ((∀ b, i ≠ .setEn b) → t.en = s.en ∧ t.pinEn = s.pinEn) ∧
    ((∀ d, i ≠ .setDir d) → t.pinDir = s.pinDir) ∧
    ((∀ u, i ≠ .step u) → (∀ n, i ≠ .move n) → t.dur = s.dur ∧ t.pinStep = s.pinStep) ∧
    (i ≠ .hasNext → t.rxbuf = s.rxbuf) ∧ (i ≠ .getNext → t.rdc = s.rdc) ∧
    (i ≠ .hasNext → i ≠ .getNext → t.flc = s.flc) ∧ t.params = s.params

/-- R26, R32: `DUR` is "a debug aid with no effect on behaviour" and the working registers are not readable: with any
values in them every command but `RDREG 5` shows the same and leaves the same. -/
def Obligations.DurAndWorkingRegistersHaveNoEffect : Prop :=
  ∀ (i : Instr) (s t : State) (d : Word) (w : Work), i ≠ .rdReg 5 → exec i s = .next t →
    ∃ t' : State, exec i { s with dur := d, work := w } = .next t' ∧
      { t' with dur := t.dur, work := t.work } = t

/-- R24, R7: no step writes a parameter, not even one in which reset strikes. -/
def Obligations.ParametersNeverChange : Prop :=
  ∀ s t : State, step s = .next t → t.params = s.params

/-- R227, R136: time never runs backwards, in a step of any kind. The unbounded counter is the model's form (log
entry 9). -/
def Obligations.TimeNeverRunsBackwards : Prop :=
  ∀ s t : State, step s = .next t → s.env.time ≤ t.env.time

/-- R226, R31, R161, R181: what holds whenever the sequencer is idle is kept by every step, a step in which reset
strikes among them. -/
def Obligations.StepKeepsTheIdleInvariant : Prop :=
  ∀ s t : State, s.Inv → step s = .next t → t.Inv

/-- R226, R35: the reset state meets it. -/
def Obligations.ResetStateMeetsTheIdleInvariant : Prop :=
  State.reset.Inv
end

