-- ==== Sys2Proof/Laws/State.lean ====
section
/-! SUPPORT. One lemma per field per named update of the state and of the environment, each true by its definition,
so that no proof unfolds a record update. -/

namespace Sys2Proof.Machine

section State
variable (s : State)

/-! `State.withEnv` -/

@[simp] theorem State.withEnv_cur (e : Env) : (s.withEnv e).cur = s.cur := rfl
@[simp] theorem State.withEnv_tgt (e : Env) : (s.withEnv e).tgt = s.tgt := rfl
@[simp] theorem State.withEnv_en (e : Env) : (s.withEnv e).en = s.en := rfl
@[simp] theorem State.withEnv_pinEn (e : Env) : (s.withEnv e).pinEn = s.pinEn := rfl
@[simp] theorem State.withEnv_pinDir (e : Env) : (s.withEnv e).pinDir = s.pinDir := rfl
@[simp] theorem State.withEnv_pinStep (e : Env) : (s.withEnv e).pinStep = s.pinStep := rfl
@[simp] theorem State.withEnv_dur (e : Env) : (s.withEnv e).dur = s.dur := rfl
@[simp] theorem State.withEnv_rxbuf (e : Env) : (s.withEnv e).rxbuf = s.rxbuf := rfl
@[simp] theorem State.withEnv_rdc (e : Env) : (s.withEnv e).rdc = s.rdc := rfl
@[simp] theorem State.withEnv_flc (e : Env) : (s.withEnv e).flc = s.flc := rfl
@[simp] theorem State.withEnv_phase (e : Env) : (s.withEnv e).phase = s.phase := rfl
@[simp] theorem State.withEnv_work (e : Env) : (s.withEnv e).work = s.work := rfl
@[simp] theorem State.withEnv_rsp (e : Env) : (s.withEnv e).rsp = s.rsp := rfl
@[simp] theorem State.withEnv_params (e : Env) : (s.withEnv e).params = s.params := rfl
@[simp] theorem State.withEnv_env (e : Env) : (s.withEnv e).env = e := rfl
@[simp] theorem State.withEnv_obs (e : Env) : (s.withEnv e).obs = s.obs := rfl

/-! `State.writePinEn` -/

@[simp] theorem State.writePinEn_cur (l : Bool) : (s.writePinEn l).cur = s.cur := rfl
@[simp] theorem State.writePinEn_tgt (l : Bool) : (s.writePinEn l).tgt = s.tgt := rfl
@[simp] theorem State.writePinEn_en (l : Bool) : (s.writePinEn l).en = s.en := rfl
@[simp] theorem State.writePinEn_pinEn (l : Bool) : (s.writePinEn l).pinEn = l := rfl
@[simp] theorem State.writePinEn_pinDir (l : Bool) : (s.writePinEn l).pinDir = s.pinDir := rfl
@[simp] theorem State.writePinEn_pinStep (l : Bool) : (s.writePinEn l).pinStep = s.pinStep := rfl
@[simp] theorem State.writePinEn_dur (l : Bool) : (s.writePinEn l).dur = s.dur := rfl
@[simp] theorem State.writePinEn_rxbuf (l : Bool) : (s.writePinEn l).rxbuf = s.rxbuf := rfl
@[simp] theorem State.writePinEn_rdc (l : Bool) : (s.writePinEn l).rdc = s.rdc := rfl
@[simp] theorem State.writePinEn_flc (l : Bool) : (s.writePinEn l).flc = s.flc := rfl
@[simp] theorem State.writePinEn_phase (l : Bool) : (s.writePinEn l).phase = s.phase := rfl
@[simp] theorem State.writePinEn_work (l : Bool) : (s.writePinEn l).work = s.work := rfl
@[simp] theorem State.writePinEn_rsp (l : Bool) : (s.writePinEn l).rsp = s.rsp := rfl
@[simp] theorem State.writePinEn_params (l : Bool) : (s.writePinEn l).params = s.params := rfl
@[simp] theorem State.writePinEn_env (l : Bool) : (s.writePinEn l).env = s.env := rfl
@[simp] theorem State.writePinEn_obs (l : Bool) : (s.writePinEn l).obs = s.obs ++ [.pin .en l s.env.now] := rfl

/-! `State.writePinDir` -/

@[simp] theorem State.writePinDir_cur (l : Bool) : (s.writePinDir l).cur = s.cur := rfl
@[simp] theorem State.writePinDir_tgt (l : Bool) : (s.writePinDir l).tgt = s.tgt := rfl
@[simp] theorem State.writePinDir_en (l : Bool) : (s.writePinDir l).en = s.en := rfl
@[simp] theorem State.writePinDir_pinEn (l : Bool) : (s.writePinDir l).pinEn = s.pinEn := rfl
@[simp] theorem State.writePinDir_pinDir (l : Bool) : (s.writePinDir l).pinDir = l := rfl
@[simp] theorem State.writePinDir_pinStep (l : Bool) : (s.writePinDir l).pinStep = s.pinStep := rfl
@[simp] theorem State.writePinDir_dur (l : Bool) : (s.writePinDir l).dur = s.dur := rfl
@[simp] theorem State.writePinDir_rxbuf (l : Bool) : (s.writePinDir l).rxbuf = s.rxbuf := rfl
@[simp] theorem State.writePinDir_rdc (l : Bool) : (s.writePinDir l).rdc = s.rdc := rfl
@[simp] theorem State.writePinDir_flc (l : Bool) : (s.writePinDir l).flc = s.flc := rfl
@[simp] theorem State.writePinDir_phase (l : Bool) : (s.writePinDir l).phase = s.phase := rfl
@[simp] theorem State.writePinDir_work (l : Bool) : (s.writePinDir l).work = s.work := rfl
@[simp] theorem State.writePinDir_rsp (l : Bool) : (s.writePinDir l).rsp = s.rsp := rfl
@[simp] theorem State.writePinDir_params (l : Bool) : (s.writePinDir l).params = s.params := rfl
@[simp] theorem State.writePinDir_env (l : Bool) : (s.writePinDir l).env = s.env := rfl
@[simp] theorem State.writePinDir_obs (l : Bool) : (s.writePinDir l).obs = s.obs ++ [.pin .dir l s.env.now] := rfl

/-! `State.writePinStep` -/

@[simp] theorem State.writePinStep_cur (l : Bool) : (s.writePinStep l).cur = s.cur := rfl
@[simp] theorem State.writePinStep_tgt (l : Bool) : (s.writePinStep l).tgt = s.tgt := rfl
@[simp] theorem State.writePinStep_en (l : Bool) : (s.writePinStep l).en = s.en := rfl
@[simp] theorem State.writePinStep_pinEn (l : Bool) : (s.writePinStep l).pinEn = s.pinEn := rfl
@[simp] theorem State.writePinStep_pinDir (l : Bool) : (s.writePinStep l).pinDir = s.pinDir := rfl
@[simp] theorem State.writePinStep_pinStep (l : Bool) : (s.writePinStep l).pinStep = l := rfl
@[simp] theorem State.writePinStep_dur (l : Bool) : (s.writePinStep l).dur = s.dur := rfl
@[simp] theorem State.writePinStep_rxbuf (l : Bool) : (s.writePinStep l).rxbuf = s.rxbuf := rfl
@[simp] theorem State.writePinStep_rdc (l : Bool) : (s.writePinStep l).rdc = s.rdc := rfl
@[simp] theorem State.writePinStep_flc (l : Bool) : (s.writePinStep l).flc = s.flc := rfl
@[simp] theorem State.writePinStep_phase (l : Bool) : (s.writePinStep l).phase = s.phase := rfl
@[simp] theorem State.writePinStep_work (l : Bool) : (s.writePinStep l).work = s.work := rfl
@[simp] theorem State.writePinStep_rsp (l : Bool) : (s.writePinStep l).rsp = s.rsp := rfl
@[simp] theorem State.writePinStep_params (l : Bool) : (s.writePinStep l).params = s.params := rfl
@[simp] theorem State.writePinStep_env (l : Bool) : (s.writePinStep l).env = s.env := rfl
@[simp] theorem State.writePinStep_obs (l : Bool) : (s.writePinStep l).obs = s.obs ++ [.pin .step l s.env.now] := rfl

/-! `State.blockReset` -/

@[simp] theorem State.blockReset_cur : (s.blockReset).cur = 0#32 := rfl
@[simp] theorem State.blockReset_tgt : (s.blockReset).tgt = 0#32 := rfl
@[simp] theorem State.blockReset_en : (s.blockReset).en = false := rfl
@[simp] theorem State.blockReset_pinEn : (s.blockReset).pinEn = true := rfl
@[simp] theorem State.blockReset_pinDir : (s.blockReset).pinDir = false := rfl
@[simp] theorem State.blockReset_pinStep : (s.blockReset).pinStep = false := rfl
@[simp] theorem State.blockReset_dur : (s.blockReset).dur = 0#32 := rfl
@[simp] theorem State.blockReset_rxbuf : (s.blockReset).rxbuf = [] := rfl
@[simp] theorem State.blockReset_rdc : (s.blockReset).rdc = 0#6 := rfl
@[simp] theorem State.blockReset_flc : (s.blockReset).flc = 0#6 := rfl
@[simp] theorem State.blockReset_phase : (s.blockReset).phase = .idle := rfl
@[simp] theorem State.blockReset_work : (s.blockReset).work = Work.reset := rfl
@[simp] theorem State.blockReset_rsp : (s.blockReset).rsp = none := rfl
@[simp] theorem State.blockReset_params : (s.blockReset).params = s.params := rfl
@[simp] theorem State.blockReset_env : (s.blockReset).env = s.env := rfl
@[simp] theorem State.blockReset_obs : (s.blockReset).obs = s.obs := rfl

/-! `State.accept` -/

@[simp] theorem State.accept_cur (op : BitVec 4) (arg : Word) : (s.accept op arg).cur = s.cur := rfl
@[simp] theorem State.accept_tgt (op : BitVec 4) (arg : Word) : (s.accept op arg).tgt = s.tgt := rfl
@[simp] theorem State.accept_en (op : BitVec 4) (arg : Word) : (s.accept op arg).en = s.en := rfl
@[simp] theorem State.accept_pinEn (op : BitVec 4) (arg : Word) : (s.accept op arg).pinEn = s.pinEn := rfl
@[simp] theorem State.accept_pinDir (op : BitVec 4) (arg : Word) : (s.accept op arg).pinDir = s.pinDir := rfl
@[simp] theorem State.accept_pinStep (op : BitVec 4) (arg : Word) : (s.accept op arg).pinStep = s.pinStep := rfl
@[simp] theorem State.accept_dur (op : BitVec 4) (arg : Word) : (s.accept op arg).dur = s.dur := rfl
@[simp] theorem State.accept_rxbuf (op : BitVec 4) (arg : Word) : (s.accept op arg).rxbuf = s.rxbuf := rfl
@[simp] theorem State.accept_rdc (op : BitVec 4) (arg : Word) : (s.accept op arg).rdc = s.rdc := rfl
@[simp] theorem State.accept_flc (op : BitVec 4) (arg : Word) : (s.accept op arg).flc = s.flc := rfl
@[simp] theorem State.accept_phase (op : BitVec 4) (arg : Word) : (s.accept op arg).phase = .exec := rfl
@[simp] theorem State.accept_work (op : BitVec 4) (arg : Word) : (s.accept op arg).work = { s.work with opc := op, arg := arg } := rfl
@[simp] theorem State.accept_rsp (op : BitVec 4) (arg : Word) : (s.accept op arg).rsp = s.rsp := rfl
@[simp] theorem State.accept_params (op : BitVec 4) (arg : Word) : (s.accept op arg).params = s.params := rfl
@[simp] theorem State.accept_env (op : BitVec 4) (arg : Word) : (s.accept op arg).env = s.env.popCmd := rfl
@[simp] theorem State.accept_obs (op : BitVec 4) (arg : Word) : (s.accept op arg).obs = s.obs := rfl

/-! `State.answer` -/

@[simp] theorem State.answer_cur (r : Response) : (s.answer r).cur = s.cur := rfl
@[simp] theorem State.answer_tgt (r : Response) : (s.answer r).tgt = s.tgt := rfl
@[simp] theorem State.answer_en (r : Response) : (s.answer r).en = s.en := rfl
@[simp] theorem State.answer_pinEn (r : Response) : (s.answer r).pinEn = s.pinEn := rfl
@[simp] theorem State.answer_pinDir (r : Response) : (s.answer r).pinDir = s.pinDir := rfl
@[simp] theorem State.answer_pinStep (r : Response) : (s.answer r).pinStep = s.pinStep := rfl
@[simp] theorem State.answer_dur (r : Response) : (s.answer r).dur = s.dur := rfl
@[simp] theorem State.answer_rxbuf (r : Response) : (s.answer r).rxbuf = s.rxbuf := rfl
@[simp] theorem State.answer_rdc (r : Response) : (s.answer r).rdc = s.rdc := rfl
@[simp] theorem State.answer_flc (r : Response) : (s.answer r).flc = s.flc := rfl
@[simp] theorem State.answer_phase (r : Response) : (s.answer r).phase = .idle := rfl
@[simp] theorem State.answer_work (r : Response) : (s.answer r).work = s.work := rfl
@[simp] theorem State.answer_rsp (r : Response) : (s.answer r).rsp = some r := rfl
@[simp] theorem State.answer_params (r : Response) : (s.answer r).params = s.params := rfl
@[simp] theorem State.answer_env (r : Response) : (s.answer r).env = s.env := rfl
@[simp] theorem State.answer_obs (r : Response) : (s.answer r).obs = s.obs ++ [.response r] := rfl

/-! `State.pulseHigh` -/

@[simp] theorem State.pulseHigh_cur (d : Word) : (s.pulseHigh d).cur = s.cur := rfl
@[simp] theorem State.pulseHigh_tgt (d : Word) : (s.pulseHigh d).tgt = s.tgt := rfl
@[simp] theorem State.pulseHigh_en (d : Word) : (s.pulseHigh d).en = s.en := rfl
@[simp] theorem State.pulseHigh_pinEn (d : Word) : (s.pulseHigh d).pinEn = s.pinEn := rfl
@[simp] theorem State.pulseHigh_pinDir (d : Word) : (s.pulseHigh d).pinDir = s.pinDir := rfl
@[simp] theorem State.pulseHigh_pinStep (d : Word) : (s.pulseHigh d).pinStep = true := rfl
@[simp] theorem State.pulseHigh_dur (d : Word) : (s.pulseHigh d).dur = d := rfl
@[simp] theorem State.pulseHigh_rxbuf (d : Word) : (s.pulseHigh d).rxbuf = s.rxbuf := rfl
@[simp] theorem State.pulseHigh_rdc (d : Word) : (s.pulseHigh d).rdc = s.rdc := rfl
@[simp] theorem State.pulseHigh_flc (d : Word) : (s.pulseHigh d).flc = s.flc := rfl
@[simp] theorem State.pulseHigh_phase (d : Word) : (s.pulseHigh d).phase = s.phase := rfl
@[simp] theorem State.pulseHigh_work (d : Word) : (s.pulseHigh d).work = { s.work with t0 := s.env.now } := rfl
@[simp] theorem State.pulseHigh_rsp (d : Word) : (s.pulseHigh d).rsp = s.rsp := rfl
@[simp] theorem State.pulseHigh_params (d : Word) : (s.pulseHigh d).params = s.params := rfl
@[simp] theorem State.pulseHigh_env (d : Word) : (s.pulseHigh d).env = s.env := rfl
@[simp] theorem State.pulseHigh_obs (d : Word) : (s.pulseHigh d).obs = s.obs ++ [.pin .step true s.env.now] := rfl

/-! `State.pulseLow` -/

@[simp] theorem State.pulseLow_cur (d : Word) : (s.pulseLow d).cur = s.cur := rfl
@[simp] theorem State.pulseLow_tgt (d : Word) : (s.pulseLow d).tgt = s.tgt := rfl
@[simp] theorem State.pulseLow_en (d : Word) : (s.pulseLow d).en = s.en := rfl
@[simp] theorem State.pulseLow_pinEn (d : Word) : (s.pulseLow d).pinEn = s.pinEn := rfl
@[simp] theorem State.pulseLow_pinDir (d : Word) : (s.pulseLow d).pinDir = s.pinDir := rfl
@[simp] theorem State.pulseLow_pinStep (d : Word) : (s.pulseLow d).pinStep = false := rfl
@[simp] theorem State.pulseLow_dur (d : Word) : (s.pulseLow d).dur = s.dur := rfl
@[simp] theorem State.pulseLow_rxbuf (d : Word) : (s.pulseLow d).rxbuf = s.rxbuf := rfl
@[simp] theorem State.pulseLow_rdc (d : Word) : (s.pulseLow d).rdc = s.rdc := rfl
@[simp] theorem State.pulseLow_flc (d : Word) : (s.pulseLow d).flc = s.flc := rfl
@[simp] theorem State.pulseLow_phase (d : Word) : (s.pulseLow d).phase = s.phase := rfl
@[simp] theorem State.pulseLow_work (d : Word) : (s.pulseLow d).work = { s.work with e1 := s.env.elapsed s.work.t0, rem := remaining (s.env.elapsed s.work.t0) d } := rfl
@[simp] theorem State.pulseLow_rsp (d : Word) : (s.pulseLow d).rsp = s.rsp := rfl
@[simp] theorem State.pulseLow_params (d : Word) : (s.pulseLow d).params = s.params := rfl
@[simp] theorem State.pulseLow_env (d : Word) : (s.pulseLow d).env = s.env := rfl
@[simp] theorem State.pulseLow_obs (d : Word) : (s.pulseLow d).obs = s.obs ++ [.pin .step false s.env.now] := rfl

/-! `State.appendRx` -/

@[simp] theorem State.appendRx_cur (b : Byte) : (s.appendRx b).cur = s.cur := rfl
@[simp] theorem State.appendRx_tgt (b : Byte) : (s.appendRx b).tgt = s.tgt := rfl
@[simp] theorem State.appendRx_en (b : Byte) : (s.appendRx b).en = s.en := rfl
@[simp] theorem State.appendRx_pinEn (b : Byte) : (s.appendRx b).pinEn = s.pinEn := rfl
@[simp] theorem State.appendRx_pinDir (b : Byte) : (s.appendRx b).pinDir = s.pinDir := rfl
@[simp] theorem State.appendRx_pinStep (b : Byte) : (s.appendRx b).pinStep = s.pinStep := rfl
@[simp] theorem State.appendRx_dur (b : Byte) : (s.appendRx b).dur = s.dur := rfl
@[simp] theorem State.appendRx_rxbuf (b : Byte) : (s.appendRx b).rxbuf = s.rxbuf.write s.flc.toNat b := rfl
@[simp] theorem State.appendRx_rdc (b : Byte) : (s.appendRx b).rdc = s.rdc := rfl
@[simp] theorem State.appendRx_flc (b : Byte) : (s.appendRx b).flc = s.flc + 1 := rfl
@[simp] theorem State.appendRx_phase (b : Byte) : (s.appendRx b).phase = s.phase := rfl
@[simp] theorem State.appendRx_work (b : Byte) : (s.appendRx b).work = s.work := rfl
@[simp] theorem State.appendRx_rsp (b : Byte) : (s.appendRx b).rsp = s.rsp := rfl
@[simp] theorem State.appendRx_params (b : Byte) : (s.appendRx b).params = s.params := rfl
@[simp] theorem State.appendRx_env (b : Byte) : (s.appendRx b).env = s.env.popRx := rfl
@[simp] theorem State.appendRx_obs (b : Byte) : (s.appendRx b).obs = s.obs ++ [.rxRead b] := rfl

/-! `State.beforePort` -/

@[simp] theorem State.beforePort_cur : (s.beforePort).cur = s.cur := rfl
@[simp] theorem State.beforePort_tgt : (s.beforePort).tgt = s.tgt := rfl
@[simp] theorem State.beforePort_en : (s.beforePort).en = s.en := rfl
@[simp] theorem State.beforePort_pinEn : (s.beforePort).pinEn = s.pinEn := rfl
@[simp] theorem State.beforePort_pinDir : (s.beforePort).pinDir = s.pinDir := rfl
@[simp] theorem State.beforePort_pinStep : (s.beforePort).pinStep = s.pinStep := rfl
@[simp] theorem State.beforePort_dur : (s.beforePort).dur = s.dur := rfl
@[simp] theorem State.beforePort_rxbuf : (s.beforePort).rxbuf = s.rxbuf := rfl
@[simp] theorem State.beforePort_rdc : (s.beforePort).rdc = s.rdc := rfl
@[simp] theorem State.beforePort_flc : (s.beforePort).flc = s.flc := rfl
@[simp] theorem State.beforePort_phase : (s.beforePort).phase = s.phase := rfl
@[simp] theorem State.beforePort_work : (s.beforePort).work = s.work := rfl
@[simp] theorem State.beforePort_rsp : (s.beforePort).rsp = none := rfl
@[simp] theorem State.beforePort_params : (s.beforePort).params = s.params := rfl
@[simp] theorem State.beforePort_env : (s.beforePort).env = s.env.pass := rfl
@[simp] theorem State.beforePort_obs : (s.beforePort).obs = s.obs := rfl

/-! `State.unoffered` -/

@[simp] theorem State.unoffered_cur : (s.unoffered).cur = s.cur := rfl
@[simp] theorem State.unoffered_tgt : (s.unoffered).tgt = s.tgt := rfl
@[simp] theorem State.unoffered_en : (s.unoffered).en = s.en := rfl
@[simp] theorem State.unoffered_pinEn : (s.unoffered).pinEn = s.pinEn := rfl
@[simp] theorem State.unoffered_pinDir : (s.unoffered).pinDir = s.pinDir := rfl
@[simp] theorem State.unoffered_pinStep : (s.unoffered).pinStep = s.pinStep := rfl
@[simp] theorem State.unoffered_dur : (s.unoffered).dur = s.dur := rfl
@[simp] theorem State.unoffered_rxbuf : (s.unoffered).rxbuf = s.rxbuf := rfl
@[simp] theorem State.unoffered_rdc : (s.unoffered).rdc = s.rdc := rfl
@[simp] theorem State.unoffered_flc : (s.unoffered).flc = s.flc := rfl
@[simp] theorem State.unoffered_phase : (s.unoffered).phase = s.phase := rfl
@[simp] theorem State.unoffered_work : (s.unoffered).work = s.work := rfl
@[simp] theorem State.unoffered_rsp : (s.unoffered).rsp = s.rsp := rfl
@[simp] theorem State.unoffered_params : (s.unoffered).params = s.params := rfl
@[simp] theorem State.unoffered_env : (s.unoffered).env = s.env.popCmd := rfl
@[simp] theorem State.unoffered_obs : (s.unoffered).obs = s.obs := rfl

/-! `State.present` -/

@[simp] theorem State.present_cur (w : CmdWord) : (s.present w).cur = s.cur := rfl
@[simp] theorem State.present_tgt (w : CmdWord) : (s.present w).tgt = s.tgt := rfl
@[simp] theorem State.present_en (w : CmdWord) : (s.present w).en = s.en := rfl
@[simp] theorem State.present_pinEn (w : CmdWord) : (s.present w).pinEn = s.pinEn := rfl
@[simp] theorem State.present_pinDir (w : CmdWord) : (s.present w).pinDir = s.pinDir := rfl
@[simp] theorem State.present_pinStep (w : CmdWord) : (s.present w).pinStep = s.pinStep := rfl
@[simp] theorem State.present_dur (w : CmdWord) : (s.present w).dur = s.dur := rfl
@[simp] theorem State.present_rxbuf (w : CmdWord) : (s.present w).rxbuf = s.rxbuf := rfl
@[simp] theorem State.present_rdc (w : CmdWord) : (s.present w).rdc = s.rdc := rfl
@[simp] theorem State.present_flc (w : CmdWord) : (s.present w).flc = s.flc := rfl
@[simp] theorem State.present_phase (w : CmdWord) : (s.present w).phase = .idle := rfl
@[simp] theorem State.present_work (w : CmdWord) : (s.present w).work = s.work := rfl
@[simp] theorem State.present_rsp (w : CmdWord) : (s.present w).rsp = s.rsp := rfl
@[simp] theorem State.present_params (w : CmdWord) : (s.present w).params = s.params := rfl
@[simp] theorem State.present_env (w : CmdWord) : (s.present w).env = { s.env with cmds := some w :: s.env.cmds, script := clearRst s.env.script } := rfl
@[simp] theorem State.present_obs (w : CmdWord) : (s.present w).obs = s.obs := rfl

/-! `State.removeRx` -/

@[simp] theorem State.removeRx_cur : s.removeRx.cur = s.cur := rfl
@[simp] theorem State.removeRx_tgt : s.removeRx.tgt = s.tgt := rfl
@[simp] theorem State.removeRx_en : s.removeRx.en = s.en := rfl
@[simp] theorem State.removeRx_pinEn : s.removeRx.pinEn = s.pinEn := rfl
@[simp] theorem State.removeRx_pinDir : s.removeRx.pinDir = s.pinDir := rfl
@[simp] theorem State.removeRx_pinStep : s.removeRx.pinStep = s.pinStep := rfl
@[simp] theorem State.removeRx_dur : s.removeRx.dur = s.dur := rfl
@[simp] theorem State.removeRx_rxbuf : s.removeRx.rxbuf = s.rxbuf := rfl
@[simp] theorem State.removeRx_rdc : s.removeRx.rdc = if s.rdc + 1 = s.flc then 0#6 else s.rdc + 1 := rfl
@[simp] theorem State.removeRx_flc : s.removeRx.flc = if s.rdc + 1 = s.flc then 0#6 else s.flc := rfl
@[simp] theorem State.removeRx_phase : s.removeRx.phase = s.phase := rfl
@[simp] theorem State.removeRx_work : s.removeRx.work = s.work := rfl
@[simp] theorem State.removeRx_rsp : s.removeRx.rsp = s.rsp := rfl
@[simp] theorem State.removeRx_params : s.removeRx.params = s.params := rfl
@[simp] theorem State.removeRx_env : s.removeRx.env = s.env := rfl
@[simp] theorem State.removeRx_obs : s.removeRx.obs = s.obs := rfl

end State

section Env
variable (e : Env)

/-! `Env.pass` -/

@[simp] theorem Env.pass_tq : (e.pass).tq = e.tq ++ e.move.arrivals := rfl
@[simp] theorem Env.pass_time : (e.pass).time = e.time + e.move.advance := rfl
@[simp] theorem Env.pass_cmds : (e.pass).cmds = e.cmds := rfl
@[simp] theorem Env.pass_script : (e.pass).script = e.script.tail := rfl
@[simp] theorem Env.pass_draw : (e.pass).draw = e.draw + 1 := rfl

/-! `Env.waitFrom` -/

@[simp] theorem Env.waitFrom_tq (t d : Word) : (e.waitFrom t d).tq = e.tq ++ e.move.arrivals := rfl
@[simp] theorem Env.waitFrom_time (t d : Word) : (e.waitFrom t d).time = e.time + ((e.waitSample t d).toNat - (e.elapsed t).toNat) := rfl
@[simp] theorem Env.waitFrom_cmds (t d : Word) : (e.waitFrom t d).cmds = e.cmds := rfl
@[simp] theorem Env.waitFrom_script (t d : Word) : (e.waitFrom t d).script = e.script.tail := rfl
@[simp] theorem Env.waitFrom_draw (t d : Word) : (e.waitFrom t d).draw = e.draw + 1 := rfl

/-! `Env.popRx` -/

@[simp] theorem Env.popRx_tq : (e.popRx).tq = e.tq.tail := rfl
@[simp] theorem Env.popRx_time : (e.popRx).time = e.time := rfl
@[simp] theorem Env.popRx_cmds : (e.popRx).cmds = e.cmds := rfl
@[simp] theorem Env.popRx_script : (e.popRx).script = e.script := rfl
@[simp] theorem Env.popRx_draw : (e.popRx).draw = e.draw := rfl

/-! `Env.popCmd` -/

@[simp] theorem Env.popCmd_tq : (e.popCmd).tq = e.tq := rfl
@[simp] theorem Env.popCmd_time : (e.popCmd).time = e.time := rfl
@[simp] theorem Env.popCmd_cmds : (e.popCmd).cmds = e.cmds.tail := rfl
@[simp] theorem Env.popCmd_script : (e.popCmd).script = e.script := rfl
@[simp] theorem Env.popCmd_draw : (e.popCmd).draw = e.draw := rfl

/-! The `now` port -/

@[simp] theorem Env.pass_now : e.pass.now = e.now + BitVec.ofNat 32 e.move.advance := by
  simp [Env.now, BitVec.ofNat_add]

@[simp] theorem Env.popRx_now : e.popRx.now = e.now := rfl
@[simp] theorem Env.popCmd_now : e.popCmd.now = e.now := rfl

end Env

end Sys2Proof.Machine
end

