-- ==== Sys2Proof/Laws/Ops.lean ====
section
/-! SUPPORT. What each shared operation can do, said once: the cells of the receive buffer, the environment's moves
and waits, the gap before an action and the wait inside one, and the response. -/

namespace Sys2Proof.Machine

/-! ### The cells of the receive buffer -/

theorem Memory.read_write_same (m : Memory) (i : Nat) (b : Byte) : (m.write i b).read i = some b := by
  induction m with
  | nil => simp [Memory.write, Memory.read]
  | cons c m ih =>
    unfold Memory.write
    split
    · simp [Memory.read]
    · split
      · simp [Memory.read]
      · rename_i h
        simp [Memory.read, Ne.symm h, ih]

theorem Memory.read_write_other (m : Memory) {i j : Nat} (b : Byte) (h : j ≠ i) :
    (m.write i b).read j = m.read j := by
  induction m with
  | nil => simp [Memory.write, Memory.read, Ne.symm h]
  | cons c m ih =>
    unfold Memory.write
    split
    · simp [Memory.read, Ne.symm h]
    · split
      · rename_i hc
        simp [Memory.read, ← hc, Ne.symm h]
      · simp [Memory.read, ih]

theorem Memory.mem_write {m : Memory} {i : Nat} {b : Byte} {c : Host.Cell} (h : c ∈ m.write i b) :
    c = (i, b) ∨ c ∈ m := by
  induction m with
  | nil => simpa [Memory.write] using h
  | cons d m ih =>
    unfold Memory.write at h
    split at h
    · simpa using h
    · split at h
      · rcases List.mem_cons.mp h with h | h
        · exact .inl h
        · exact .inr (List.mem_cons_of_mem _ h)
      · rcases List.mem_cons.mp h with h | h
        · exact .inr (h ▸ List.mem_cons_self)
        · exact (ih h).imp id (List.mem_cons_of_mem _)

theorem Memory.pairwise_write {m : Memory} (i : Nat) (b : Byte) (h : m.Pairwise fun c d => c.1 < d.1) :
    (m.write i b).Pairwise fun c d => c.1 < d.1 := by
  induction m with
  | nil => simp [Memory.write]
  | cons c m ih =>
    have hc := List.pairwise_cons.mp h
    unfold Memory.write
    split
    · rename_i hi
      refine List.pairwise_cons.mpr ⟨fun d hd => ?_, h⟩
      rcases List.mem_cons.mp hd with rfl | hd
      · exact hi
      · exact lt_trans hi (hc.1 d hd)
    · split
      · rename_i hi
        exact List.pairwise_cons.mpr ⟨fun d hd => hi ▸ hc.1 d hd, hc.2⟩
      · refine List.pairwise_cons.mpr ⟨fun d hd => ?_, ih hc.2⟩
        rcases Memory.mem_write hd with rfl | hd
        · simp only
          omega
        · exact hc.1 d hd

theorem Memory.wf_iff (m : Memory) :
    m.wf = true ↔ m.Pairwise (fun c d => c.1 < d.1) ∧ ∀ c ∈ m, c.1 < Config.cap := by
  simp [Memory.wf, Memory.unlisted]

/-- A write to an index of the buffer keeps the canonical form. -/
theorem Memory.wf_write {m : Memory} {i : Nat} (b : Byte) (h : m.wf = true) (hi : i < Config.cap) :
    (m.write i b).wf = true := by
  rw [Memory.wf_iff] at h ⊢
  refine ⟨Memory.pairwise_write i b h.1, fun c hc => ?_⟩
  rcases Memory.mem_write hc with rfl | hc
  · exact hi
  · exact h.2 c hc

/-- The reset state's buffer has the canonical form. -/
theorem Memory.wf_reset : State.reset.rxbuf.wf = true := by decide

/-! ### The environment's moves -/

theorem Env.quiet_iff (e : Env) : e.quiet = true ↔ ∀ m ∈ e.script, m.rst = false := by
  simp [Env.quiet]

theorem Env.struck_of_quiet {e : Env} (h : e.quiet = true) : e.struck = false := by
  rw [Env.quiet_iff] at h
  unfold Env.struck Env.move
  split
  · rename_i m ms hs
    exact h m (hs ▸ List.mem_cons_self)
  · rfl

theorem Env.quiet_of_script {e e' : Env} (h : e.quiet = true) (hs : e'.script = e.script.tail) :
    e'.quiet = true := by
  rw [Env.quiet_iff] at h ⊢
  exact fun m hm => h m (List.mem_of_mem_tail (hs ▸ hm))

@[simp] theorem Env.pass_quiet {e : Env} (h : e.quiet = true) : e.pass.quiet = true :=
  Env.quiet_of_script h rfl

@[simp] theorem Env.waitFrom_quiet {e : Env} (t d : Word) (h : e.quiet = true) : (e.waitFrom t d).quiet = true :=
  Env.quiet_of_script h rfl

@[simp] theorem Env.popRx_quiet (e : Env) : e.popRx.quiet = e.quiet := rfl

@[simp] theorem Env.popCmd_quiet (e : Env) : e.popCmd.quiet = e.quiet := rfl

/-! ### Arrivals, and what some moves leave -/

@[simp] theorem Env.arrivals_zero (e : Env) : e.arrivals 0 = [] := by
  unfold Env.arrivals
  rfl

@[simp] theorem Env.arrivals_succ (e : Env) (k : Nat) :
    e.arrivals (k + 1) = e.move.arrivals ++ e.pass.arrivals k := by
  rw [Env.arrivals]

/-- The next moves are given by the script and the count of the moves made. -/
theorem Env.move_congr {e e' : Env} (hs : e'.script = e.script) (hd : e'.draw = e.draw) : e'.move = e.move := by
  simp only [Env.move, hs, hd]

theorem Env.arrivals_congr {e e' : Env} (hs : e'.script = e.script) (hd : e'.draw = e.draw) (k : Nat) :
    e'.arrivals k = e.arrivals k := by
  induction k generalizing e e' with
  | zero => simp
  | succ k ih =>
    rw [Env.arrivals_succ, Env.arrivals_succ, Env.move_congr hs hd,
      ih (e := e.pass) (e' := e'.pass) (by simp [hs]) (by simp [hd])]

/-- Moves made one after the other bring their arrivals one after the other. -/
theorem Env.arrivals_add {e e' : Env} {k : Nat} (hs : e'.script = e.script.drop k) (hd : e'.draw = e.draw + k)
    (l : Nat) : e.arrivals (k + l) = e.arrivals k ++ e'.arrivals l := by
  induction k generalizing e with
  | zero => simpa using (Env.arrivals_congr (by simpa using hs) (by simpa using hd) l).symm
  | succ k ih =>
    rw [Nat.add_right_comm, Env.arrivals_succ, Env.arrivals_succ, List.append_assoc,
      ih (e := e.pass) (by simp [hs]) (by simp [hd]; omega)]

theorem Env.After.refl (e : Env) : e.After 0 [] e := ⟨by simp, le_refl _, rfl, by simp, rfl⟩

theorem Env.After.trans {a b c : Env} {k l : Nat} {xs ys : List Byte} (h : a.After k xs b) (g : b.After l ys c) :
    a.After (k + l) (xs ++ ys) c where
  tq := by
    rw [List.append_assoc, g.tq, ← List.append_assoc, h.tq, Env.arrivals_add h.script h.draw, List.append_assoc]
  time := h.time.trans g.time
  cmds := g.cmds.trans h.cmds
  script := by rw [g.script, h.script, List.drop_drop]
  draw := by rw [g.draw, h.draw, Nat.add_assoc]

theorem Env.After.quiet {e e' : Env} {k : Nat} {xs : List Byte} (h : e.After k xs e') (hq : e.quiet = true) :
    e'.quiet = true := by
  rw [Env.quiet_iff] at hq ⊢
  exact fun m hm => hq m (List.mem_of_mem_drop (h.script ▸ hm))

@[simp] theorem Env.after_pass (e : Env) : e.After 1 [] e.pass := ⟨by simp, by simp, rfl, by simp, rfl⟩

@[simp] theorem Env.after_waitFrom (e : Env) (t d : Word) : e.After 1 [] (e.waitFrom t d) :=
  ⟨by simp, by simp, rfl, by simp, rfl⟩

/-- The append of a byte takes the head of the transport (R114). -/
theorem Env.after_popRx {e : Env} {b : Byte} {rest : List Byte} (h : e.tq = b :: rest) : e.After 0 [b] e.popRx :=
  ⟨by simp [h], le_refl _, rfl, by simp, rfl⟩

theorem Env.After.later {e e' : Env} {k : Nat} (h : e.After k [] e') : e.Later e' := ⟨k, h⟩

theorem Env.Later.refl (e : Env) : e.Later e := ⟨0, Env.After.refl e⟩

theorem Env.Later.trans {a b c : Env} (h : a.Later b) (g : b.Later c) : a.Later c := by
  obtain ⟨k, h⟩ := h
  obtain ⟨l, g⟩ := g
  exact ⟨k + l, h.trans g⟩

theorem Env.Later.quiet {e e' : Env} (h : e.Later e') (hq : e.quiet = true) : e'.quiet = true := by
  obtain ⟨k, h⟩ := h
  exact h.quiet hq

@[simp] theorem Env.later_pass (e : Env) : e.Later e.pass := ⟨1, Env.after_pass e⟩

@[simp] theorem Env.later_waitFrom (e : Env) (t d : Word) : e.Later (e.waitFrom t d) := ⟨1, Env.after_waitFrom e t d⟩

/-! ### Waits (41_pulse.md R136) -/

theorem Env.waitSample_toNat (e : Env) (t d : Word) :
    (e.waitSample t d).toNat =
      max d.toNat (e.elapsed t).toNat +
        e.move.advance % (2 ^ 32 - max d.toNat (e.elapsed t).toNat) := by
  have hd := d.isLt
  have he := (e.elapsed t).isLt
  have hm : max d.toNat (e.elapsed t).toNat < 2 ^ 32 := max_lt hd he
  have := Nat.mod_lt e.move.advance (Nat.sub_pos_of_lt hm)
  simp only [Env.waitSample, BitVec.toNat_ofNat]
  exact Nat.mod_eq_of_lt (by omega)

/-- A wait is at least as long as it was asked to be. -/
theorem Env.le_waitSample (e : Env) (t d : Word) : d ≤ e.waitSample t d := by
  rw [BitVec.le_def, Env.waitSample_toNat]
  exact le_add_right (le_max_left _ _)

/-- Time does not run backwards in a wait. -/
theorem Env.elapsed_le_waitSample (e : Env) (t d : Word) : e.elapsed t ≤ e.waitSample t d := by
  rw [BitVec.le_def, Env.waitSample_toNat]
  exact le_add_right (le_max_right _ _)

/-- The wait moves `now` to its sample. -/
@[simp] theorem Env.now_waitFrom (e : Env) (t d : Word) : (e.waitFrom t d).now = t + e.waitSample t d := by
  have h := Env.elapsed_le_waitSample e t d
  rw [BitVec.le_def] at h
  have hx := (e.waitSample t d).isLt
  have ht := t.isLt
  have he : (e.elapsed t).toNat = (2 ^ 32 - t.toNat + e.time % 2 ^ 32) % 2 ^ 32 := by
    simp [Env.elapsed, Env.now, BitVec.toNat_sub]
  apply BitVec.eq_of_toNat_eq
  simp only [Env.now, Env.waitFrom_time, BitVec.toNat_ofNat, BitVec.toNat_add]
  omega

/-- After a wait the elapsed time is the sample that ended it. -/
@[simp] theorem Env.elapsed_waitFrom (e : Env) (t d : Word) :
    (e.waitFrom t d).elapsed t = e.waitSample t d := by
  simp [Env.elapsed]

/-- A wait from a sample of `now` itself lasts exactly its sample. -/
theorem Env.time_waitFrom_now (e : Env) (d : Word) :
    (e.waitFrom e.now d).time = e.time + (e.waitSample e.now d).toNat := by
  simp [Env.elapsed]

/-! ### The course of a command -/

@[simp] theorem Progress.andThen_running (s : State) (f : State → Progress) :
    (Progress.running s).andThen f = f s := rfl

@[simp] theorem Progress.andThen_abandoned (s : State) (f : State → Progress) :
    (Progress.abandoned s).andThen f = .abandoned s := rfl

@[simp] theorem Progress.state_running (s : State) : (Progress.running s).state = s := rfl

@[simp] theorem Progress.state_abandoned (s : State) : (Progress.abandoned s).state = s := rfl

@[simp] theorem Progress.outcome_running (s : State) : (Progress.running s).outcome = .next s := rfl

@[simp] theorem Progress.outcome_abandoned (s : State) : (Progress.abandoned s).outcome = .next s := rfl

/-- A command that runs on came through its first part. -/
theorem Progress.andThen_eq_running {p : Progress} {f : State → Progress} {t : State}
    (h : p.andThen f = .running t) : ∃ s, p = .running s ∧ f s = .running t := by
  cases p with
  | running s => exact ⟨s, rfl, h⟩
  | abandoned s => cases h

/-- A command is abandoned in one of its parts. -/
theorem Progress.andThen_eq_abandoned {p : Progress} {f : State → Progress} {t : State}
    (h : p.andThen f = .abandoned t) : p = .abandoned t ∨ ∃ s, p = .running s ∧ f s = .abandoned t := by
  cases p with
  | running s => exact .inr ⟨s, rfl, h⟩
  | abandoned s => exact .inl h

theorem State.gap_quiet {s : State} (h : s.env.quiet = true) : s.gap = .running (s.withEnv s.env.pass) := by
  simp [State.gap, Env.struck_of_quiet h]

theorem State.wait_quiet {s : State} (t d : Word) (h : s.env.quiet = true) :
    s.wait t d = .running (s.withEnv (s.env.waitFrom t d)) := by
  simp [State.wait, Env.struck_of_quiet h]

theorem State.respond_quiet {s : State} (st : Status) (data : Word) (h : s.env.quiet = true) :
    s.respond st data = .running ((s.withEnv s.env.pass).answer { status := st, data := data }) := by
  simp [State.respond, State.gap_quiet h]

/-- Everything a gap can do. -/
theorem State.gap_cases (s : State) :
    s.gap = .running (s.withEnv s.env.pass) ∨ s.gap = .abandoned (s.withEnv s.env.pass).blockReset := by
  unfold State.gap
  split
  · exact .inr rfl
  · exact .inl rfl

/-- Everything a wait can do. -/
theorem State.wait_cases (s : State) (t d : Word) :
    s.wait t d = .running (s.withEnv (s.env.waitFrom t d)) ∨
      s.wait t d = .abandoned (s.withEnv s.env.pass).blockReset := by
  unfold State.wait
  split
  · exact .inr rfl
  · exact .inl rfl

/-- Everything a response can do. -/
theorem State.respond_cases (s : State) (st : Status) (data : Word) :
    s.respond st data = .running ((s.withEnv s.env.pass).answer { status := st, data := data }) ∨
      s.respond st data = .abandoned (s.withEnv s.env.pass).blockReset := by
  unfold State.respond
  rcases s.gap_cases with h | h <;> simp [h]

/-- The block's reset leaves the reset values, whatever was there. -/
theorem State.blockReset_blockReset (s : State) : s.blockReset.blockReset = s.blockReset := rfl

end Sys2Proof.Machine
end

