-- ==== Sys2Proof/Laws/Course.lean ====
section
/-! SUPPORT. What the longer parts of a command can do, said once each: one step pulse, a train of pulses, the pacing
pause and the drain. Three lemmas for each: what it leaves when it runs on (inversion), what it leaves when reset
abandons it, and that it runs on when no reset is planned. -/

namespace Sys2Proof.Machine

@[simp] theorem responses_append (a b : List Obs) : responses (a ++ b) = responses a ++ responses b := by
  simp [responses]

@[simp] theorem pinEvents_append (a b : List Obs) : pinEvents (a ++ b) = pinEvents a ++ pinEvents b := by
  simp [pinEvents]

@[simp] theorem rxBytes_append (a b : List Obs) : rxBytes (a ++ b) = rxBytes a ++ rxBytes b := by
  simp [rxBytes]

@[simp] theorem responses_pulseTrain (ps : List (Word × Word)) : responses (pulseTrain ps) = [] := by
  induction ps with
  | nil => rfl
  | cons p ps ih => exact ih

@[simp] theorem rxBytes_pulseTrain (ps : List (Word × Word)) : rxBytes (pulseTrain ps) = [] := by
  induction ps with
  | nil => rfl
  | cons p ps ih => exact ih

@[simp] theorem responses_rxRead (bs : List Byte) : responses (bs.map .rxRead) = [] := by
  simp [responses]

@[simp] theorem rxBytes_rxRead (bs : List Byte) : rxBytes (bs.map .rxRead) = bs := by
  induction bs with
  | nil => rfl
  | cons b bs ih => exact congrArg (b :: ·) ih

/-- From `s` to `t` no response has been given: the record has grown, and the environment has moved on, less exactly
the bytes that the record says were taken. -/
def Unanswered (s t : State) : Prop :=
  ∃ k os, t.obs = s.obs ++ os ∧ responses os = [] ∧ s.env.After k (rxBytes os) t.env

theorem Unanswered.of_env {s t : State} {k : Nat} (h : s.env.After k [] t.env) (ho : t.obs = s.obs) :
    Unanswered s t := ⟨k, [], by simp [ho], rfl, h⟩

theorem Unanswered.trans {s t u : State} (h : Unanswered s t) (g : Unanswered t u) : Unanswered s u := by
  obtain ⟨k, os, ho, hr, he⟩ := h
  obtain ⟨l, ps, gp, gr, ge⟩ := g
  exact ⟨k + l, os ++ ps, by rw [gp, ho, List.append_assoc], by simp [hr, gr], by simpa using he.trans ge⟩

/-- What reset leaves of a command that began in `s`: the reset values, the parameters, and only observations that
are no response. Bytes that the command had taken are in no cell and not back in the transport
(70_reset_and_hazards.md R212, 93_implementation_defined.md U15). -/
structure CutFrom (s t : State) : Prop where
  reset : t.blockReset = t
  params : t.params = s.params
  trace : Unanswered s t

/-- A later part of a command is abandoned: so is the command. -/
theorem CutFrom.of_later {s u t : State} (h : CutFrom u t) (hp : u.params = s.params) (hu : Unanswered s u) :
    CutFrom s t := ⟨h.reset, h.params.trans hp, hu.trans h.trace⟩

/-! ### The gap, the wait and the response -/

theorem State.gap_running {s t : State} (h : s.gap = .running t) : t = s.withEnv s.env.pass := by
  rcases s.gap_cases with g | g <;> simp_all

theorem State.gap_abandoned {s t : State} (h : s.gap = .abandoned t) : CutFrom s t := by
  rcases s.gap_cases with g | g
  · simp_all
  · rw [g] at h
    cases h
    exact ⟨rfl, rfl, .of_env (Env.after_pass _) rfl⟩

theorem State.wait_running {s t : State} {a d : Word} (h : s.wait a d = .running t) :
    t = s.withEnv (s.env.waitFrom a d) := by
  rcases s.wait_cases a d with g | g <;> simp_all

theorem State.wait_abandoned {s t : State} {a d : Word} (h : s.wait a d = .abandoned t) : CutFrom s t := by
  rcases s.wait_cases a d with g | g
  · simp_all
  · rw [g] at h
    cases h
    exact ⟨rfl, rfl, .of_env (Env.after_pass _) rfl⟩

theorem State.respond_running {s t : State} {st : Status} {data : Word} (h : s.respond st data = .running t) :
    t = (s.withEnv s.env.pass).answer { status := st, data := data } := by
  rcases s.respond_cases st data with g | g <;> simp_all

theorem State.respond_abandoned {s t : State} {st : Status} {data : Word}
    (h : s.respond st data = .abandoned t) : CutFrom s t := by
  rcases s.respond_cases st data with g | g
  · simp_all
  · rw [g] at h
    cases h
    exact ⟨rfl, rfl, .of_env (Env.after_pass _) rfl⟩

/-! ### One step pulse (41_pulse.md R135) -/

/-- The first wait with the remaining time is at least the whole duration (R138). -/
theorem le_add_remaining (e1 dur : Word) : dur.toNat ≤ e1.toNat + (remaining e1 dur).toNat := by
  unfold remaining
  split
  · rename_i h
    rw [BitVec.le_def] at h
    omega
  · rename_i h
    rw [BitVec.le_def] at h
    rw [BitVec.toNat_sub_of_le (by rw [BitVec.le_def]; omega)]
    omega

/-- What `MoveStep(dur)` leaves: after a gap one high-then-low transition, the draws `e1` and `e2` of its two waits
at or above their bounds, and time advanced by the gap and both. -/
theorem State.moveStep_running {s t : State} {dur : Word} (h : s.moveStep dur = .running t) :
    ∃ gap : Nat, ∃ e1 e2 : Word, ∃ e : Env,
      t = { s with
            dur := dur, pinStep := false, env := e
            work := { s.work with
              t0 := BitVec.ofNat 32 (s.env.time + gap), e1 := e1, rem := remaining e1 dur }
            obs := s.obs ++ pulseTrain [(BitVec.ofNat 32 (s.env.time + gap), e1)] } ∧
      dur >>> 1 ≤ e1 ∧ remaining e1 dur ≤ e2 ∧ e.time = s.env.time + gap + e1.toNat + e2.toNat ∧
      s.env.After 3 [] e := by
  obtain ⟨u, hu, h⟩ := Progress.andThen_eq_running h
  obtain ⟨v, hv, h⟩ := Progress.andThen_eq_running h
  have hu := State.gap_running hu
  have hv := State.wait_running hv
  have ht := State.wait_running h
  subst hu
  subst hv
  subst ht
  have hnow : BitVec.ofNat 32 (s.env.time + s.env.move.advance) = s.env.pass.now := rfl
  have h2 := Env.time_waitFrom_now (s.env.pass.waitFrom s.env.pass.now (dur >>> 1))
    (remaining (s.env.pass.waitSample s.env.pass.now (dur >>> 1)) dur)
  rw [Env.now_waitFrom, Env.time_waitFrom_now] at h2
  refine ⟨s.env.move.advance, s.env.pass.waitSample s.env.pass.now (dur >>> 1),
    (s.env.pass.waitFrom s.env.pass.now (dur >>> 1)).waitSample
      (s.env.pass.now + s.env.pass.waitSample s.env.pass.now (dur >>> 1))
      (remaining (s.env.pass.waitSample s.env.pass.now (dur >>> 1)) dur),
    (s.env.pass.waitFrom s.env.pass.now (dur >>> 1)).waitFrom
      (s.env.pass.now + s.env.pass.waitSample s.env.pass.now (dur >>> 1))
      (remaining (s.env.pass.waitSample s.env.pass.now (dur >>> 1)) dur),
    ?_, Env.le_waitSample .., Env.le_waitSample .., h2, ?_⟩
  · rw [hnow]
    simp [State.pulseLow, State.pulseHigh, State.writePinStep, State.withEnv, pulseTrain,
      Config.stepActiveLevel]
  · exact ((Env.after_pass _).trans (Env.after_waitFrom _ _ _)).trans (Env.after_waitFrom _ _ _)

theorem State.moveStep_abandoned {s t : State} {dur : Word} (h : s.moveStep dur = .abandoned t) :
    CutFrom s t := by
  rcases Progress.andThen_eq_abandoned h with h | ⟨u, hu, h⟩
  · exact State.gap_abandoned h
  · have hu := State.gap_running hu
    subst hu
    rcases Progress.andThen_eq_abandoned h with h | ⟨v, hv, h⟩
    · exact (State.wait_abandoned h).of_later rfl ⟨1, [.pin .step true _], rfl, rfl, Env.after_pass _⟩
    · have hv := State.wait_running hv
      subst hv
      exact (State.wait_abandoned h).of_later rfl
        ⟨2, [.pin .step true _, .pin .step false _], List.append_assoc _ _ _, rfl,
          (Env.after_pass _).trans (Env.after_waitFrom _ _ _)⟩

theorem State.moveStep_quiet {s : State} (dur : Word) (h : s.env.quiet = true) :
    ∃ t, s.moveStep dur = .running t := by
  have h1 : s.env.pass.quiet = true := Env.pass_quiet h
  unfold State.moveStep
  rw [State.gap_quiet h, Progress.andThen_running, State.wait_quiet _ _ (by simpa using h1),
    Progress.andThen_running, State.wait_quiet _ _ (by simp [h1])]
  exact ⟨_, rfl⟩

/-! ### A train of pulses (42_motion.md R156) -/

/-- What the step loop leaves: exactly `n` pulses of one duration. -/
theorem State.pulses_running {dur : Word} {n : Nat} {s t : State} (h : State.pulses dur n s = .running t) :
    ∃ ps : List (Word × Word), ∃ w : Work, ∃ e : Env,
      t = { s with
            dur := if n = 0 then s.dur else dur
            pinStep := if n = 0 then s.pinStep else false
            work := w, env := e, obs := s.obs ++ pulseTrain ps } ∧
      ps.length = n ∧ (∀ p ∈ ps, dur >>> 1 ≤ p.2) ∧ s.env.time + n * dur.toNat ≤ e.time ∧ w.opc = s.work.opc ∧
      w.arg = s.work.arg ∧ s.env.After (3 * n) [] e := by
  induction n generalizing s with
  | zero =>
    obtain rfl : s = t := by injection h
    exact ⟨[], s.work, s.env, by simp [pulseTrain], rfl, by simp, by simp, rfl, rfl, Env.After.refl _⟩
  | succ n ih =>
    obtain ⟨u, hu, h⟩ := Progress.andThen_eq_running h
    obtain ⟨gap, e1, e2, e, rfl, he1, he2, htime, hl⟩ := State.moveStep_running hu
    obtain ⟨ps, w, e', rfl, hlen, hps, htime', ho, ha, hl'⟩ := ih h
    refine ⟨(BitVec.ofNat 32 (s.env.time + gap), e1) :: ps, w, e', ?_, by simp [hlen], ?_, ?_, ho, ha,
      by simpa [Nat.mul_succ, Nat.add_comm] using hl.trans hl'⟩
    · cases n <;> simp [pulseTrain]
    · rintro p hp
      rcases List.mem_cons.mp hp with rfl | hp
      · exact he1
      · exact hps p hp
    · have := le_add_remaining e1 dur
      rw [BitVec.le_def] at he2
      simp only at htime'
      rw [Nat.succ_mul]
      omega

theorem State.pulses_abandoned {dur : Word} {n : Nat} {s t : State}
    (h : State.pulses dur n s = .abandoned t) : CutFrom s t := by
  induction n generalizing s with
  | zero => cases h
  | succ n ih =>
    rcases Progress.andThen_eq_abandoned h with h | ⟨u, hu, h⟩
    · exact State.moveStep_abandoned h
    · obtain ⟨gap, e1, e2, e, rfl, -, -, -, hl⟩ := State.moveStep_running hu
      exact (ih h).of_later rfl ⟨3, pulseTrain [(_, e1)], rfl, rfl, hl⟩

theorem State.pulses_quiet (dur : Word) (n : Nat) {s : State} (h : s.env.quiet = true) :
    ∃ t, State.pulses dur n s = .running t := by
  induction n generalizing s with
  | zero => exact ⟨s, rfl⟩
  | succ n ih =>
    obtain ⟨u, hu⟩ := State.moveStep_quiet dur h
    obtain ⟨gap, e1, e2, e, rfl, -, -, -, hl⟩ := State.moveStep_running hu
    rw [State.pulses, hu, Progress.andThen_running]
    exact ih (hl.quiet h)

/-! ### The pacing pause and the drain (40_rxfifo.md R114) -/

/-- What the pause leaves: `T0` and the environment, later. -/
theorem State.pause_running {s t : State} (h : s.pause = .running t) :
    ∃ t0 : Word, ∃ e : Env, t = { s with work := { s.work with t0 := t0 }, env := e } ∧ s.env.After 2 [] e ∧
      s.env.time + s.params.tPace.toNat ≤ e.time := by
  obtain ⟨u, hu, h⟩ := Progress.andThen_eq_running h
  have hu := State.gap_running hu
  subst hu
  have ht := State.wait_running h
  subst ht
  have hw := Env.time_waitFrom_now s.env.pass s.params.tPace
  have hle := Env.le_waitSample s.env.pass s.env.pass.now s.params.tPace
  rw [BitVec.le_def] at hle
  have hp := Env.pass_time s.env
  exact ⟨_, _, rfl, (Env.after_pass _).trans (Env.after_waitFrom _ _ _),
    by simp only [State.withEnv_env, State.withEnv_params]; omega⟩

theorem State.pause_abandoned {s t : State} (h : s.pause = .abandoned t) : CutFrom s t := by
  rcases Progress.andThen_eq_abandoned h with h | ⟨u, hu, h⟩
  · exact State.gap_abandoned h
  · have hu := State.gap_running hu
    subst hu
    exact (State.wait_abandoned h).of_later rfl (.of_env (Env.after_pass _) rfl)

theorem State.pause_quiet {s : State} (h : s.env.quiet = true) : ∃ t, s.pause = .running t := by
  unfold State.pause
  rw [State.gap_quiet h, Progress.andThen_running, State.wait_quiet _ _ (by simp [Env.pass_quiet h])]
  exact ⟨_, rfl⟩

theorem Cursor.toNat_succ {c : Cursor} (h : c.toNat < Config.cap) : (c + 1).toNat = c.toNat + 1 := by
  have : c.toNat < 32 := h
  rw [BitVec.toNat_add]
  simp
  omega

/-- One pass of the drain with a byte to read and room for it: the byte is appended, and after the pause, at least
`T_PACE_US` later, the drain goes on. -/
theorem State.drainLoop_pass {n : Nat} {s t : State} {b : Byte} {rest : List Byte}
    (h : State.drainLoop (n + 1) s = .running t) (hb : s.env.pass.tq = b :: rest) (hc : s.flc.toNat < Config.cap) :
    ∃ t0 : Word, ∃ e : Env, State.drainLoop n { s with
        rxbuf := s.rxbuf.write s.flc.toNat b, flc := s.flc + 1, work := { s.work with t0 := t0 }, env := e
        obs := s.obs ++ [.rxRead b] } = .running t ∧
      s.env.After 3 [b] e ∧ s.env.time + s.params.tPace.toNat ≤ e.time := by
  obtain ⟨u, hu, h⟩ := Progress.andThen_eq_running h
  have hu := State.gap_running hu
  subst hu
  simp only [State.rxData, State.withEnv_env, hb, List.head?_cons, State.withEnv_flc, hc, if_true] at h
  obtain ⟨v, hv, h⟩ := Progress.andThen_eq_running h
  obtain ⟨t0, e, rfl, hl, htime⟩ := State.pause_running hv
  have hpass := Env.pass_time s.env
  simp only [State.appendRx_env, State.withEnv_env, Env.popRx_time, State.appendRx_params,
    State.withEnv_params] at htime
  exact ⟨t0, e, h, ((Env.after_pass _).trans (Env.after_popRx hb)).trans hl, by omega⟩

/-- A pass of the drain that finds the transport empty, or the buffer full, is the last. -/
theorem State.drainLoop_last {n : Nat} {s t : State} (h : State.drainLoop (n + 1) s = .running t)
    (hb : s.env.pass.tq = [] ∨ Config.cap ≤ s.flc.toNat) : t = s.withEnv s.env.pass := by
  obtain ⟨u, hu, h⟩ := Progress.andThen_eq_running h
  have hu := State.gap_running hu
  subst hu
  split at h
  · rename_i b hh
    split at h
    · rename_i hc
      have hc : s.flc.toNat < Config.cap := hc
      rw [State.rxData, State.withEnv_env, hb.resolve_right (by omega)] at hh
      cases hh
    · exact (Progress.running.inj h).symm
  · exact (Progress.running.inj h).symm

/-- What the drain leaves when it runs on: it has taken, in order, bytes that waited or arrived, each of them seen by
the sample before it, has stored them at the fill cursor, and nothing else has changed. It stops at a sample that finds
the transport empty or with the buffer full, unless its bound on passes ends it first. -/
theorem State.drainLoop_running {n : Nat} {s t : State} (h : State.drainLoop n s = .running t) :
    ∃ taken : List Byte, ∃ m : Memory, ∃ w : Work, ∃ e : Env, ∃ k : Nat,
      t = { s with
            rxbuf := m, flc := s.flc + BitVec.ofNat 6 taken.length, work := w, env := e
            obs := s.obs ++ taken.map .rxRead } ∧
      s.env.After k taken e ∧ s.env.time + taken.length * s.params.tPace.toNat ≤ e.time ∧
      w.opc = s.work.opc ∧ w.arg = s.work.arg ∧
      (taken ≠ [] → s.flc.toNat + taken.length ≤ Config.cap) ∧
      (∀ j < taken.length, j < (s.env.tq ++ s.env.arrivals (3 * j + 1)).length) ∧
      (∀ j, (hj : j < taken.length) → m.read (s.flc.toNat + j) = some taken[j]) ∧
      (∀ i, i < s.flc.toNat ∨ s.flc.toNat + taken.length ≤ i → m.read i = s.rxbuf.read i) ∧
      (s.rxbuf.wf = true → m.wf = true) ∧
      (0 < n → Config.cap < n + s.flc.toNat →
        k = 3 * taken.length + 1 ∧ (e.tq = [] ∨ Config.cap ≤ s.flc.toNat + taken.length)) := by
  induction n generalizing s with
  | zero =>
    obtain rfl : s = t := by injection h
    refine ⟨[], s.rxbuf, s.work, s.env, 0, ?_, Env.After.refl _, by simp, rfl, rfl, by simp, by simp, by simp,
      by simp, id, ?_⟩
    · simp
    · omega
  | succ n ih =>
    by_cases hstop : s.env.pass.tq = [] ∨ Config.cap ≤ s.flc.toNat
    · obtain rfl := State.drainLoop_last h hstop
      exact ⟨[], s.rxbuf, s.work, s.env.pass, 1, by simp [State.withEnv], Env.after_pass _, by simp, rfl, rfl,
        by simp, by simp, by simp, by simp, id, fun _ _ => ⟨rfl, hstop.imp_right (by simp)⟩⟩
    · rw [not_or] at hstop
      obtain ⟨b, rest, hb⟩ := List.exists_cons_of_ne_nil hstop.1
      have hcap : s.flc.toNat < Config.cap := by omega
      have hflc : (s.flc + 1).toNat = s.flc.toNat + 1 := Cursor.toNat_succ hcap
      obtain ⟨t0, e, h, hl, hpause⟩ := State.drainLoop_pass h hb hcap
      obtain ⟨taken, m, w, e', k, rfl, hl', htime, ho, ha, hle, hseen, hnew, hold, hwf, hend⟩ := ih h
      simp only [hflc] at hle hnew hold hend
      simp only at hl' htime hseen ho ha
      refine ⟨b :: taken, m, w, e', 3 + k, ?_, hl.trans hl', ?_, ho, ha, ?_, ?_, ?_, ?_, ?_, ?_⟩
      · simp only [List.map_cons, List.append_assoc, List.cons_append, List.nil_append, List.length_cons]
        rw [Nat.add_comm, BitVec.ofNat_add, ← BitVec.add_assoc]
        rfl
      · rw [List.length_cons, Nat.succ_mul]
        omega
      · intro _
        by_cases ht : taken = []
        · subst ht
          simp only [List.length_cons, List.length_nil]
          omega
        · have := hle ht
          simp only [List.length_cons]
          omega
      · intro j hj
        cases j with
        | zero =>
          have hpos := congrArg List.length hb
          simp only [Env.pass_tq, List.length_append, List.length_cons] at hpos
          simp only [Env.arrivals_succ, List.length_append]
          omega
        | succ j =>
          have hj' := hseen j (by simpa using hj)
          have htq := congrArg List.length hl.tq
          rw [show 3 * (j + 1) + 1 = 3 + (3 * j + 1) by omega, Env.arrivals_add hl.script hl.draw]
          simp only [List.length_append, List.length_cons, List.length_nil] at hj' htq ⊢
          omega
      · intro j hj
        cases j with
        | zero =>
          rw [Nat.add_zero, hold _ (.inl (by omega))]
          simp [Memory.read_write_same]
        | succ j =>
          have := hnew j (by simpa using hj)
          rw [show s.flc.toNat + (j + 1) = s.flc.toNat + 1 + j by omega]
          simpa using this
      · intro i hi
        simp only [List.length_cons] at hi
        rw [hold i (by omega)]
        exact Memory.read_write_other _ _ (by omega)
      · exact fun hw => hwf (Memory.wf_write _ hw hcap)
      · intro _ hn
        obtain ⟨hk, hend⟩ := hend (by omega) (by omega)
        simp only [List.length_cons]
        exact ⟨by omega, hend.imp_right (by omega)⟩

theorem State.drainLoop_abandoned {n : Nat} {s t : State} (h : State.drainLoop n s = .abandoned t) :
    CutFrom s t := by
  induction n generalizing s with
  | zero => cases h
  | succ n ih =>
    rcases Progress.andThen_eq_abandoned h with h | ⟨u, hu, h⟩
    · exact State.gap_abandoned h
    · have hu := State.gap_running hu
      subst hu
      split at h
      · split at h
        · rename_i b hb _
          have hpop : s.env.After 1 [b] s.env.pass.popRx :=
            (Env.after_pass s.env).trans (Env.after_popRx (List.eq_cons_of_mem_head? hb))
          rcases Progress.andThen_eq_abandoned h with h | ⟨v, hv, h⟩
          · exact (State.pause_abandoned h).of_later rfl ⟨1, [.rxRead b], rfl, rfl, hpop⟩
          · obtain ⟨t0, e, rfl, hl, -⟩ := State.pause_running hv
            exact (ih h).of_later rfl ⟨3, [.rxRead b], rfl, rfl, hpop.trans hl⟩
        · cases h
      · cases h

theorem State.drainLoop_quiet (n : Nat) {s : State} (h : s.env.quiet = true) :
    ∃ t, State.drainLoop n s = .running t := by
  induction n generalizing s with
  | zero => exact ⟨s, rfl⟩
  | succ n ih =>
    have hp : s.env.pass.quiet = true := Env.pass_quiet h
    rw [State.drainLoop, State.gap_quiet h, Progress.andThen_running]
    split
    · split
      · rename_i b _ _
        obtain ⟨u, hu⟩ := State.pause_quiet (s := (s.withEnv s.env.pass).appendRx b) (by simpa using hp)
        obtain ⟨t0, e, rfl, hl, -⟩ := State.pause_running hu
        rw [hu, Progress.andThen_running]
        exact ih (hl.quiet (by simpa using hp))
      · exact ⟨_, rfl⟩
    · exact ⟨_, rfl⟩

/-- The bound on passes of `State.drain` never ends the loop: with one pass more it does the same. -/
theorem drain_bound {n : Nat} {s : State} (hn : 0 < n) (h : Config.cap < n + s.flc.toNat) :
    State.drainLoop (n + 1) s = State.drainLoop n s := by
  induction n generalizing s with
  | zero => omega
  | succ n ih =>
    rw [State.drainLoop, State.drainLoop]
    rcases s.gap_cases with g | g
    · rw [g, Progress.andThen_running, Progress.andThen_running]
      split
      · split
        · rename_i b _ hcap
          have hsucc : (s.flc + 1).toNat = s.flc.toNat + 1 := Cursor.toNat_succ hcap
          have hlt : s.flc.toNat < Config.cap := hcap
          cases hp : ((s.withEnv s.env.pass).appendRx b).pause with
          | running u =>
            obtain ⟨t0, e, rfl, -⟩ := State.pause_running hp
            exact ih (by omega) (by simp only [State.appendRx_flc, State.withEnv_flc, hsucc]; omega)
          | abandoned u => rfl
        · rfl
      · rfl
    · rw [g]
      rfl

end Sys2Proof.Machine
end

