-- ==== Sys2Proof/Laws/Float32.lean ====
section
/-! SUPPORT. The rounding function, said once (42_motion.md R151, R152): the bounds of its significand, that it is a
nearest one, and the value of the pattern it gives. -/

namespace Sys2Proof.Machine.F32

theorem expo_toNat (p : Word) : expo p = p.toNat / 2 ^ 23 % 2 ^ 8 := by
  simp [expo, BitVec.extractLsb'_toNat, Nat.shiftRight_eq_div_pow]

theorem frac_toNat (p : Word) : frac p = p.toNat % 2 ^ 23 := by
  simp [frac, BitVec.extractLsb'_toNat]

theorem sign_toNat (p : Word) : sign p = decide (2 ^ 31 ≤ p.toNat) := by
  have h : sign p = p.msb := (BitVec.msb_eq_getLsbD_last p).symm
  rw [h, BitVec.msb_eq_decide]

/-- The truncated significand is below 2^24, and at least 2^23 when the unit is above the smallest one. -/
theorem quotient_bounds (n d : Nat) :
    n / (d * 2 ^ rndExp n d) < 2 ^ 24 ∧ (0 < rndExp n d → 2 ^ 23 ≤ n / (d * 2 ^ rndExp n d)) := by
  rw [← Nat.div_div_eq_div_mul]
  unfold rndExp
  generalize n / d = q
  have hq : q < 2 ^ (Nat.log2 q + 1) := Nat.lt_log2_self
  constructor
  · rw [Nat.div_lt_iff_lt_mul (by positivity), ← pow_add]
    exact lt_of_lt_of_le hq (Nat.pow_le_pow_right (by omega) (by omega))
  · intro hk
    have hz : q ≠ 0 := by
      rintro rfl
      simp at hk
    rw [Nat.le_div_iff_mul_le (by positivity), ← pow_add]
    exact le_trans (Nat.pow_le_pow_right (by omega) (by omega)) (Nat.log2_self_le hz)

theorem rndSig_le (n d : Nat) : rndSig n d ≤ 2 ^ 24 := by
  have := (quotient_bounds n d).1
  unfold rndSig
  dsimp only
  split <;> omega

theorem le_rndSig {n d : Nat} (h : 0 < rndExp n d) : 2 ^ 23 ≤ rndSig n d := by
  have := (quotient_bounds n d).2 h
  unfold rndSig
  dsimp only
  split <;> omega

/-- The significand is a nearest one: it is off by at most half a unit. -/
theorem rndSig_nearest (n : Nat) {d : Nat} (hd : 0 < d) :
    2 * n ≤ 2 * (rndSig n d * (d * 2 ^ rndExp n d)) + d * 2 ^ rndExp n d ∧
      2 * (rndSig n d * (d * 2 ^ rndExp n d)) ≤ 2 * n + d * 2 ^ rndExp n d := by
  unfold rndSig
  dsimp only
  have hu : 0 < d * 2 ^ rndExp n d := by positivity
  generalize d * 2 ^ rndExp n d = u at *
  have h := Nat.div_add_mod n u
  have h' : u * (n / u) = n / u * u := Nat.mul_comm _ _
  have := Nat.mod_lt n hu
  split
  · rw [Nat.add_mul]
    omega
  · omega

/-- In the domain the unit's exponent is at most 252. -/
theorem rndExp_le {num : Int} {den : Nat} (h : inDomain num den = true) : rndExp num.natAbs den ≤ 252 := by
  simp only [inDomain, Bool.and_eq_true, decide_eq_true_eq] at h
  unfold rndExp
  omega

/-- The magnitude of the pattern `k × 2^23 + m` is `m × 2^k` units. -/
theorem mag_of_parts {p : Word} {k m : Nat} (hp : p.toNat % 2 ^ 31 = k * 2 ^ 23 + m) (hk : k ≤ 252)
    (hm : m ≤ 2 ^ 24) (hlow : 0 < k → 2 ^ 23 ≤ m) : finite p = true ∧ mag p = m * 2 ^ k := by
  have he : expo p = (k * 2 ^ 23 + m) / 2 ^ 23 := by
    rw [expo_toNat, ← hp]
    omega
  have hf : frac p = (k * 2 ^ 23 + m) % 2 ^ 23 := by
    rw [frac_toNat, ← hp]
    omega
  unfold finite mag
  rw [he, hf]
  refine ⟨by simp only [bne_iff_ne, ne_eq]; omega, ?_⟩
  rcases lt_or_ge m (2 ^ 23) with h | h
  · obtain rfl : k = 0 := by omega
    rw [if_pos (by omega)]
    omega
  · rw [if_neg (by omega)]
    rcases Nat.lt_or_ge m (2 ^ 24) with h' | h'
    · rw [show (k * 2 ^ 23 + m) / 2 ^ 23 - 1 = k by omega, show 2 ^ 23 + (k * 2 ^ 23 + m) % 2 ^ 23 = m by omega]
    · obtain rfl : m = 2 ^ 24 := by omega
      rw [show (k * 2 ^ 23 + 2 ^ 24) / 2 ^ 23 - 1 = k + 1 by omega,
        show 2 ^ 23 + (k * 2 ^ 23 + 2 ^ 24) % 2 ^ 23 = 2 ^ 23 by omega, pow_succ]
      ring

/-- The value of a rounded quotient (R152): `sign(x) × m × u`. -/
theorem val_rnd32 {num : Int} {den : Nat} (h : inDomain num den = true) :
    finite (rnd32 num den) = true ∧
      val (rnd32 num den) =
        (if num < 0 then -1 else 1) * ((rndSig num.natAbs den * 2 ^ rndExp num.natAbs den : Nat) : Int) := by
  have hk := rndExp_le h
  have hm := rndSig_le num.natAbs den
  have hl := le_rndSig (n := num.natAbs) (d := den)
  unfold rnd32
  rw [if_pos h]
  unfold rndMag
  generalize rndExp num.natAbs den = k at *
  generalize rndSig num.natAbs den = m at *
  split
  · have hz : m = 0 := by omega
    subst hz
    refine ⟨by decide, ?_⟩
    rw [show val 0x00000000#32 = 0 by decide]
    simp
  · have hn : (BitVec.ofNat 32 ((if num < 0 then 2 ^ 31 else 0) + (k * 2 ^ 23 + m))).toNat =
        (if num < 0 then 2 ^ 31 else 0) + (k * 2 ^ 23 + m) := by
      rw [BitVec.toNat_ofNat, Nat.mod_eq_of_lt]
      split <;> omega
    generalize BitVec.ofNat 32 ((if num < 0 then 2 ^ 31 else 0) + (k * 2 ^ 23 + m)) = p at *
    have hp := mag_of_parts (p := p) (k := k) (m := m) (by rw [hn]; split <;> omega) hk hm hl
    refine ⟨hp.1, ?_⟩
    unfold val
    rw [if_pos hp.1, hp.2, sign_toNat, hn]
    split
    · rw [if_pos (by simp only [decide_eq_true_eq]; omega)]
      simp
    · rw [if_neg (by simp only [decide_eq_true_eq]; omega)]
      simp

end Sys2Proof.Machine.F32
end

