-- ==== Sys2Proof/Laws/PerInstr.lean ====
section
/-! SUPPORT. Laws about a command as syntax, one lemma per constructor: the family `OpcodeField` says that the opcode
field of a command's word is its opcode (30_encoding.md R80, R83). -/

namespace Sys2Proof

/-- The opcode field of a word made of an opcode and an operand. -/
theorem opField_append (op : BitVec 4) (arg : Word) : opField (op ++ arg) = op := by
  apply BitVec.eq_of_getLsbD_eq
  intro i hi
  simp only [opField, BitVec.getLsbD_extractLsb', hi, decide_true, Bool.true_and]
  exact BitVec.getLsbD_append.trans (by simp)

/-- The operand field of a word made of an opcode and an operand. -/
theorem argField_append (op : BitVec 4) (arg : Word) : argField (op ++ arg) = arg := by
  apply BitVec.eq_of_getLsbD_eq
  intro i hi
  simp only [argField, BitVec.getLsbD_extractLsb', hi, decide_true, Bool.true_and]
  exact BitVec.getLsbD_append.trans (by simp [hi])

end Sys2Proof

namespace Sys2Proof.Laws.OpcodeField

/-- The opcode field of the encoded word is the opcode of the command. -/
def Statement (i : Instr) : Prop := opField (encode i) = i.opcode

theorem reserved0 : Statement .reserved0 := opField_append _ _
theorem setEn (b : Bool) : Statement (.setEn b) := opField_append _ _
theorem getEn : Statement .getEn := opField_append _ _
theorem setDir (d : Direction) : Statement (.setDir d) := opField_append _ _
theorem setTgt (p : Word) : Statement (.setTgt p) := opField_append _ _
theorem move (n : Nat) : Statement (.move n) := opField_append _ _
theorem step (u : Nat) : Statement (.step u) := opField_append _ _
theorem rdReg (idx : Nat) : Statement (.rdReg idx) := opField_append _ _
theorem hasNext : Statement .hasNext := opField_append _ _
theorem getNext : Statement .getNext := opField_append _ _
theorem reservedA : Statement .reservedA := opField_append _ _
theorem reservedB : Statement .reservedB := opField_append _ _
theorem reservedC : Statement .reservedC := opField_append _ _
theorem reservedD : Statement .reservedD := opField_append _ _
theorem reservedE : Statement .reservedE := opField_append _ _
theorem reservedF : Statement .reservedF := opField_append _ _

end Sys2Proof.Laws.OpcodeField
end

