-- ==== Sys2Proof/Tests/Slice0.lean ====
section
/-! SUPPORT. The model's own tests. Expected results are the spec's: the words of 95_test_vectors.md V1 to V12, its
vectors V13 to V73 and the trace T1, or the rule named. Each runs one operation or one step on a small state. -/

namespace Sys2Proof.Tests

open Sys2Proof.Machine

/-- The state a step or a meaning leaves, if it answers one. -/
def left? : Host.Outcome State Fault Refusal → Option State
  | .next s => some s
  | .fault _ => none
  | .refused _ => none

/-- One field of the state a meaning leaves. -/
def see {α : Type} (o : Host.Outcome State Fault Refusal) (f : State → α) : Option α := (left? o).map f

/-- A move of the environment that lets a time pass or a wait overshoot, with no byte and no reset. -/
def late (a : Nat) : EnvMove := { advance := a, arrivals := [], rst := false }

/-- A move of the environment in which bytes arrive. -/
def bytes (bs : List Byte) : EnvMove := { advance := 0, arrivals := bs, rst := false }

/-- A move of the environment in which the host asserts `rst`. -/
def strike : EnvMove := { advance := 0, arrivals := [], rst := true }

/-- `k` moves of the ideal time base (41_pulse.md R136): nothing passes, every wait ends at its bound. -/
def ideal (k : Nat) : List EnvMove := List.replicate k (late 0)

/-- The reset state with a scripted environment. -/
def after (ms : List EnvMove) : State := { State.reset with env := { State.reset.env with script := ms } }

/-- A state with speeds. -/
def moving (cur tgt : Word) (ms : List EnvMove) : State := { after ms with cur := cur, tgt := tgt }

/-- A state with bytes waiting in the transport. -/
def waiting (bs : List Byte) (ms : List EnvMove) : State :=
  { State.reset with env := { State.reset.env with tq := bs, script := ms } }

/-! ### Well-formedness: each check refuses an ill-formed term -/

theorem test_wf_refuses_wide_count : (Instr.move (2 ^ 32)).wf = false := by decide
theorem test_wf_refuses_wide_duration : (Instr.step (2 ^ 32)).wf = false := by decide
theorem test_wf_refuses_wide_index : (Instr.rdReg 16).wf = false := by decide
theorem test_wf_allows_refused_operands :
    (Instr.rdReg 9).wf = true ∧ (Instr.setTgt 0x7F800000#32).wf = true ∧ (Instr.move 0xFFFFFFFF).wf = true := by
  decide

/-! ### Decoding: words written out from R80 to R84 (op in bits 35:32, arg in bits 31:0) -/

theorem test_decode_setEn : decode (0b0001#4 ++ 0b00000000000000000000000000000001#32) = .setEn true := by decide
theorem test_decode_setEn_ignored : decode 0x1FFFFFFFE#36 = .setEn false := by decide -- V9
theorem test_decode_getEn : decode (0b0010#4 ++ 0b00000000000000000000000000000000#32) = .getEn := by decide
theorem test_decode_setDir : decode (0b0011#4 ++ 0b00000000000000000000000000000001#32) = .setDir .clockwise := by
  decide
theorem test_decode_setDir_ccw : decode 0x300000000#36 = .setDir .counterClockwise := by decide -- V2
theorem test_decode_setTgt :
    decode (0b0100#4 ++ 0b00111111100000000000000000000000#32) = .setTgt 0x3F800000#32 := by decide -- V3
theorem test_decode_move : decode (0b0101#4 ++ 0b00000000000000000000000000000100#32) = .move 4 := by decide -- V4
theorem test_decode_step : decode (0b0110#4 ++ 0b00000000000000000000000111110100#32) = .step 500 := by decide -- V5
theorem test_decode_rdReg : decode 0x700000013#36 = .rdReg 3 := by decide -- V10
theorem test_decode_hasNext : decode 0x8DEADBEEF#36 = .hasNext := by decide -- V8
theorem test_decode_getNext : decode 0x900000000#36 = .getNext := by decide -- V7
theorem test_decode_reserved :
    [0x000000000#36, 0xA00000000#36, 0xB00000007#36, 0xC00000000#36, 0xD00000000#36, 0xE00000000#36,
      0xF12345678#36].map decode =
    [.reserved0, .reservedA, .reservedB, .reservedC, .reservedD, .reservedE, .reservedF] := by decide -- V11
theorem test_decode_refuses_wide : decodeNat (2 ^ 36) matches .error .widerThanCommandWord := by decide
theorem test_decodeTableWord :
    decodeTableWord 40 0x6000001F4 = some (.step 500) ∧ decodeTableWord 40 (2 ^ 36) = none := by decide
theorem test_encode_words :
    [Instr.setEn true, .setDir .counterClockwise, .setTgt 0xBF800000#32, .move 4, .step 500, .rdReg 5].map encode =
    [0x100000001#36, 0x300000000#36, 0x4BF800000#36, 0x500000004#36, 0x6000001F4#36, 0x700000005#36] := by
  decide -- V1 to V6
theorem test_pseudo_words :
    [Pseudo.moveDefault, .stepDefault, .ramp, .enable, .disable, .cw, .ccw].map (fun p => encode p.expand) =
    [0x500000001#36, 0x6000001F4#36, 0x500000000#36, 0x100000001#36, 0x100000000#36, 0x300000001#36,
      0x300000000#36] := by decide -- R98
theorem test_response_words :
    [Response.mk .ok 4#32, ⟨.badOperand, 0#32⟩, ⟨.illegalOp, 0#32⟩, ⟨.ok, 0x3F172474#32⟩].map Response.word =
    [0x000000004#34, 0x200000000#34, 0x100000000#34, 0x03F172474#34] := by decide -- V12

theorem test_assemble_decimals :
    [Line.setTgtDecimal false 10 1, .setTgtDecimal false 6 1, .setTgtPattern 0xBF800000#32, .pseudo .stepDefault].map
      Line.assemble =
    [some 0x43F800000#36, some 0x43F19999A#36, some 0x4BF800000#36, some 0x6000001F4#36] := by decide -- R97, R98
theorem test_assemble_refuses_wide : (Line.move (2 ^ 32)).assemble = none := by decide -- R81

/-! ### Arithmetic and the ramp tick (R151 to R158) -/

theorem test_decimal_06 : F32.rnd32 (6 * 2 ^ 149) 10 = 0x3F19999A#32 := by decide -- V3
theorem test_decimal_027 : F32.rnd32 (27 * 2 ^ 149) 100 = 0x3E8A3D71#32 := by decide -- V33
theorem test_tie_to_even : F32.fsub 0x3E800000#32 (F32.rnd32 (2 ^ 122) 1) = 0x3E800000#32 := by decide -- R157 case 3
theorem test_tick_V20 : rampTick 0x00000000#32 0x3F800000#32 = 0x3E4CCCCD#32 := by decide
theorem test_tick_V23 : rampTick 0x3EF9DB23#32 0x3F800000#32 = 0x3F172474#32 := by decide
theorem test_tick_V27 : rampTick 0x3F4A501B#32 0x3F800000#32 = 0x3F800000#32 := by decide
theorem test_tick_V29 : rampTick 0x3F03126E#32 0x00000000#32 = 0x3ED1B716#32 := by decide
theorem test_tick_V30 : rampTick 0xBEF9DB23#32 0xBF800000#32 = 0xBF172474#32 := by decide
theorem test_tick_V31 : rampTick 0x00000000#32 0x3E800000#32 = 0x3D4CCCCD#32 := by decide
theorem test_tick_V33 : rampTick 0x3E8A3D71#32 0x3F051EB8#32 = 0x3F051EB8#32 := by decide
theorem test_tick_V36 : rampTick 0x4B800000#32 0x4B800001#32 = 0x4B800000#32 := by decide
theorem test_duration_V37 : stepDuration 0x3F172474#32 200#16 = 8468#32 := by decide
theorem test_duration_V40 : stepDuration 0x3F000001#32 1#16 = 1999999#32 := by decide
theorem test_duration_V43 : stepDuration 0x47800000#32 200#16 = 0#32 := by decide
theorem test_duration_V45 : stepDuration 0x3F800000#32 65535#16 = 15#32 := by decide

/-! ### Commands -/

theorem test_setEn_V64 :
    see (exec (.setEn true) (after (ideal 2))) (fun s => (s.en, s.pinEn, s.obs)) =
    some (true, false, [.pin .en false 0#32, .response ⟨.ok, 0#32⟩]) := by decide
theorem test_getEn_ignores_pin :
    see (exec .getEn { after (ideal 1) with en := true, pinEn := true }) (·.rsp) = some (some ⟨.ok, 1#32⟩) := by
  decide -- R132
theorem test_setDir_V66 :
    see (exec (.setDir .clockwise) (moving 0x3F800000#32 0#32 (ideal 2))) (fun s => (s.pinDir, s.cur, s.obs)) =
    some (true, 0x3F800000#32, [.pin .dir true 0#32, .response ⟨.ok, 0#32⟩]) := by decide
theorem test_setTgt_V50 :
    see (exec (.setTgt 0x47800001#32) (moving 0#32 0x3F800000#32 (ideal 2))) (fun s => (s.tgt, s.rsp)) =
    some (0x3F800000#32, some ⟨.badOperand, 0#32⟩) := by decide
theorem test_setTgt_V54 :
    see (exec (.setTgt 0x80000000#32) (moving 0#32 0x3F800000#32 (ideal 2))) (fun s => (s.tgt, s.rsp)) =
    some (0x00000000#32, some ⟨.ok, 0#32⟩) := by decide
theorem test_move_P1_below :
    see (exec (.move 4) (moving 0x3EB851EC#32 0x3F800000#32 (ideal 2))) (fun s => (s.cur, s.rsp, s.obs.length)) =
    some (0x3EF9DB23#32, some ⟨.ok, 0#32⟩, 1) := by decide -- V22
theorem test_move_P1_above :
    see (exec (.move 2) (moving 0x3EF9DB23#32 0x3F800000#32 (ideal 8))) (fun s => (s.dur, s.obs)) =
    some (8468#32, [.pin .step true 0#32, .pin .step false 4234#32, .pin .step true 8468#32,
      .pin .step false 12702#32, .response ⟨.ok, 2#32⟩]) := by decide -- P1, command 7, two of its pulses
theorem test_step_V58 :
    see (exec (.step 500) (after [late 0, late 150, late 0, late 0])) (fun s => (s.obs, s.env.now)) =
    some ([.pin .step true 0#32, .pin .step false 400#32, .response ⟨.ok, 0#32⟩], 500#32) := by decide
theorem test_step_V59 :
    see (exec (.step 500) (after [late 0, late 350, late 0, late 0])) (fun s => (s.work.rem, s.env.now)) =
    some (0#32, 600#32) := by decide
theorem test_step_V63_wraps :
    see (exec (.step 500) { after (ideal 4) with env := { (after (ideal 4)).env with time := 0xFFFFFF00 } })
      (fun s => (s.obs, s.env.now)) =
    some ([.pin .step true 0xFFFFFF00#32, .pin .step false 0xFFFFFFFA#32, .response ⟨.ok, 0#32⟩], 0xF4#32) := by
  decide
theorem test_rdReg_V69 :
    see (exec (.rdReg 2) { after (ideal 1) with pinDir := true }) (·.rsp) = some (some ⟨.ok, 6#32⟩) := by decide
theorem test_rdReg_cursors :
    see (exec (.rdReg 3) { after (ideal 1) with rdc := 31#6, flc := 32#6 }) (·.rsp) =
    some (some ⟨.ok, 0x0000201F#32⟩) := by decide -- end of section 3 of the vectors
theorem test_rdReg_V71 :
    see (exec (.rdReg 6) (after (ideal 1))) (·.rsp) = some (some ⟨.badOperand, 0#32⟩) := by decide
theorem test_hasNext_V13 :
    see (exec .hasNext (waiting [0x47#8, 0x31#8] (ideal 9))) (fun s => (s.rxbuf, s.flc, s.env.tq)) =
    some ([(0, 0x47#8), (1, 0x31#8)], 2#6, []) := by decide
theorem test_hasNext_V13_time :
    see (exec .hasNext (waiting [0x47#8, 0x31#8] (ideal 9))) (fun s => (s.rsp, s.env.now)) =
    some (some ⟨.ok, 1#32⟩, 4000#32) := by decide
theorem test_hasNext_V19 :
    see (exec .hasNext (waiting [0x41#8] [late 0, late 0, bytes [0x42#8], late 0, late 0, late 0,
      late 0, late 0])) (fun s => (s.flc, s.obs)) =
    some (2#6, [.rxRead 0x41#8, .rxRead 0x42#8, .response ⟨.ok, 1#32⟩]) := by decide
theorem test_getNext_V14 :
    see (exec .getNext { after (ideal 2) with rxbuf := [(0, 0x47#8), (1, 0x31#8)], flc := 2#6 })
      (fun s => (s.rdc, s.flc, s.rsp)) = some (1#6, 2#6, some ⟨.ok, 0x47#32⟩) := by decide
theorem test_getNext_last :
    see (exec .getNext { after (ideal 2) with rxbuf := [(31, 0x20#8)], rdc := 31#6, flc := 32#6 })
      (fun s => (s.rdc, s.flc, s.rsp)) = some (0#6, 0#6, some ⟨.ok, 0x20#32⟩) := by decide -- R112 case 4
theorem test_reserved_V72 :
    see (exec .reservedF (after (ideal 1))) (fun s => (s.rsp, s.obs)) =
    some (some ⟨.illegalOp, 0#32⟩, [.response ⟨.illegalOp, 0#32⟩]) := by decide

/-! ### Steps: acceptance, and reset -/

theorem test_step_accepts :
    see (step ((after (ideal 3)).withFetchWord 40 0x100000001)) (fun s => (s.en, s.work.opc, s.env.cmds, s.rsp)) =
    some (true, 0x1#4, [], some ⟨.ok, 0#32⟩) := by decide
theorem test_step_without_command :
    see (step { after [bytes [1#8]] with rsp := some ⟨.ok, 0#32⟩ }) (fun s => (s.rsp, s.env.tq, s.obs)) =
    some (none, [1#8], []) := by decide
theorem test_step_without_word_then_word :
    see (step { after [late (2 ^ 32)] with env := { (after [late (2 ^ 32)]).env with cmds := [none, some 0x200000000#36] } })
      (fun s => (s.env.cmds, s.env.time, s.env.now, s.obs)) = some ([some 0x200000000#36], 2 ^ 32, 0#32, []) := by
  decide -- R227: any gap
theorem test_reset_V73 :
    see (exec (.move 4) { moving 0x3EF9DB23#32 0x3F800000#32 (ideal 7 ++ [strike]) with en := true, pinEn := false })
      (fun s => (s.rsp, s.cur, s.pinStep, s.pinEn)) = some (none, 0#32, false, true) := by decide
theorem test_reset_V73_pulses :
    see (exec (.move 4) (moving 0x3EF9DB23#32 0x3F800000#32 (ideal 7 ++ [strike])))
      (fun s => s.obs.map fun o => o matches .pin .step true _) = some [true, false, true, false] := by decide
theorem test_reset_loses_drained_bytes :
    see (exec .hasNext (waiting [0x47#8, 0x31#8] (ideal 3 ++ [late 0, strike])))
      (fun s => (s.flc, s.rxbuf, s.env.tq, s.rsp)) = some (0#6, [], [], none) := by decide -- R212, U15
theorem test_reset_cuts_high_phase :
    see (exec (.step 500) (after [late 0, strike])) (fun s => (s.pinStep, s.dur, s.obs)) =
    some (false, 0#32, [.pin .step true 0#32]) := by decide -- R212

/-! ### Witnesses: for each statement of Obligations.lean with hypotheses, values that meet them together, one for
each clause, at the ends of the clause's range. `pulsing` is a state above the threshold, `holding` one with two
bytes pending and one waiting. -/

def pulsing (ms : List EnvMove) : State := moving 0x3EF9DB23#32 0x3F800000#32 ms

def holding (ms : List EnvMove) : State :=
  { waiting [0x33#8] ms with rxbuf := [(0, 0x47#8), (1, 0x31#8)], flc := 2#6 }

theorem witness_DecodeOfEncodeIsIdentity :
    (Instr.move (2 ^ 32 - 1)).wf = true ∧ (Instr.rdReg 15).wf = true ∧ (Instr.step 0).wf = true := by decide
theorem witness_PseudoInstructionsExpandToOneWord : State.reset.env.quiet = true ∧ (pulsing (ideal 9)).env.quiet = true := by decide
theorem witness_AssembledLineDecodesToItsCommand :
    (Line.move (2 ^ 32 - 1)).assemble = some 0x5FFFFFFFF#36 ∧ (Line.rdReg 0x13).assemble = some 0x700000003#36 := by
  decide
theorem witness_StepRunsThePresentedCommand :
    let s := { after (ideal 2) with env := { (after (ideal 2)).env with cmds := [some 0x200000000#36, none] } }
    s.env.struck = false ∧ s.phase = .idle ∧ s.env.cmds.head? = some (some 0x200000000#36) := by decide
theorem witness_BusyOrUnofferedStepOnlyLetsTimePass :
    (let s := { after (ideal 1) with phase := .exec }; s.env.struck = false ∧ s.phase = .exec) ∧
    (let s := after (ideal 1); s.env.struck = false ∧ s.env.cmds = []) ∧
    (let s := { after (ideal 1) with env := { (after (ideal 1)).env with cmds := [none, some 0x200000000#36] } }
     s.env.struck = false ∧ s.phase = .idle ∧ s.env.cmds.head? = some none) := by decide
theorem witness_AnyGapAndAnyArrivalsBeforeACommand :
    let s := { after [late (2 ^ 32)] with env := { (after [late (2 ^ 32)]).env with cmds := [some 0x200000000#36] } }
    s.phase = .idle ∧ s.env.cmds = some 0x200000000#36 :: [] ∧ s.env.script = ⟨2 ^ 32, [], false⟩ :: [] := by decide
theorem witness_ResetBetweenCommands : (after [strike]).env.struck = true := by decide
theorem witness_ResetCutsAPulseInItsHighPhase :
    (after [late 3, strike]).env.script = late 3 :: strike :: [] ∧ (late 3).rst = false ∧
    strike.rst = true := by decide
theorem witness_CommandEndsAnsweredOrReset :
    (∃ t, exec .getEn (after (ideal 1)) = .next t ∧ t.rsp = some ⟨.ok, 0#32⟩) ∧
    ∃ t, exec .getEn (after [strike]) = .next t ∧ t.rsp = none := by
  exact ⟨⟨_, rfl, by decide⟩, _, rfl, by decide⟩
theorem witness_SetEnDrivesPinAndRecordsFlag :
    opField 0x1FFFFFFFE#36 = 0x1#4 ∧ (after (ideal 2)).env.quiet = true := by decide
theorem witness_GetEnAnswersTheFlag : opField 0x2FFFFFFFF#36 = 0x2#4 := by decide
theorem witness_SetDirDrivesThePin : opField 0x300000000#36 = 0x3#4 ∧ opField 0x3FFFFFFFF#36 = 0x3#4 := by decide
theorem witness_StepEmitsOneSelfCorrectingPulse :
    opField 0x6FFFFFFFF#36 = 0x6#4 ∧ 0 < 2 ^ 32 ∧ 2 ^ 32 - 1 < 2 ^ 32 ∧ (after (ideal 4)).env.quiet = true := by decide
theorem witness_WaitEndsAtAnySampleFromItsBound :
    250#32 ≤ 250#32 ∧ (after []).env.elapsed 0#32 ≤ 250#32 ∧ 250#32 ≤ 0xFFFFFFFF#32 := by decide
theorem witness_EveryJitterOfAPulseIsAdmitted :
    501 < 2 ^ 32 ∧ 501 / 2 ≤ (250#32).toNat ∧ 501 - (250#32).toNat ≤ (251#32).toNat ∧
    501 - (600#32).toNat ≤ (0#32).toNat := by decide
theorem witness_FirstHalfOvershootIsAbsorbed :
    500 < 2 ^ 32 ∧ 500 / 2 + 249 < 500 ∧
    (after [late 0, late 249, late 0, late 0]).env.script =
      ⟨0, [], false⟩ :: ⟨249, [], false⟩ :: ⟨0, [], false⟩ :: ⟨0, [], false⟩ :: [] := by decide
theorem witness_EnableNeverGatesPulses :
    (∃ t, exec (.step 500) (after (ideal 4)) = .next t) ∧ ∃ t, exec (.move 2) (pulsing (ideal 8)) = .next t :=
  ⟨⟨_, rfl⟩, _, rfl⟩
theorem witness_SetTgtRecordsOrRefuses :
    opField 0x43F800000#36 = 0x4#4 ∧ (0x7F800000#32).extractLsb' 23 8 = 0xFF#8 ∧
    (0x47800000 < ((0xC7800001#32).extractLsb' 0 31).toNat) ∧
    ((0xC7800000#32).extractLsb' 23 8 ≠ 0xFF#8 ∧ ((0xC7800000#32).extractLsb' 0 31).toNat ≤ 0x47800000) ∧
    ((0x80000000#32).extractLsb' 23 8 ≠ 0xFF#8 ∧ ((0x80000000#32).extractLsb' 0 31).toNat ≤ 0x47800000) := by decide
theorem witness_TargetAcceptedExactlyWhenInRange :
    targetRefused 0x47800000#32 = false ∧ targetRefused 0x47800001#32 = true ∧ targetRefused 0x80000000#32 = false := by
  decide
theorem witness_at_half : F32.toRat 0x3F000000#32 ≤ 1 / 2 := by
  rw [F32.toRat, show F32.val 0x3F000000#32 = 2 ^ 148 by decide]
  norm_num
theorem witness_above_half : 1 / 2 < F32.toRat 0x3F000001#32 := by
  rw [F32.toRat, show F32.val 0x3F000001#32 = 2 ^ 148 + 2 ^ 125 by decide]
  norm_num
theorem witness_MovePulsesOnlyAboveTheThreshold :
    opField 0x5FFFFFFFF#36 = 0x5#4 ∧ rampTick 0x3F000000#32 0x3F000000#32 = 0x3F000000#32 ∧
    F32.toRat 0x3F000000#32 ≤ 1 / 2 ∧ rampTick 0x3F000001#32 0x3F000001#32 = 0x3F000001#32 ∧
    1 / 2 < F32.toRat 0x3F000001#32 :=
  ⟨by decide, by decide, witness_at_half, by decide, witness_above_half⟩
theorem witness_MoveOnTheIdealTimeBase :
    (pulsing (ideal 8)).env.script = List.replicate (3 * 2 + 2) ⟨0, [], false⟩ ++ [] ∧
    aboveThreshold (rampTick 0x3EF9DB23#32 0x3F800000#32) = true ∧
    8468#32 = stepDuration (rampTick 0x3EF9DB23#32 0x3F800000#32) 200#16 := by decide
theorem witness_legal_speeds :
    [0x00000000#32, 0x00000001#32, 0x3E800000#32, 0x3F800000#32, 0x47800000#32, 0xC7800000#32].all legalSpeed = true ∧
    [0x80000000#32, 0x47800001#32, 0x7F800000#32].any legalSpeed = false := by decide
theorem witness_RampTickIsTheRoundedRecurrence :
    snaps (rampDelta 0x3F400001#32 0x3F800000#32) = true ∧ snaps (rampDelta 0x3F400000#32 0x3F800000#32) = false := by
  decide
theorem witness_SnapTestOnTheRoundedGap :
    legalSpeed 0x32000000#32 = true ∧ legalSpeed 0x3E800000#32 = true ∧
    snaps (rampDelta 0x32000000#32 0x3E800000#32) = false ∧ snaps (rampDelta 0x32000001#32 0x3E800000#32) = true := by
  decide
theorem witness_StepDurationIsTheTruncatedQuotient :
    legalSpeed 0x3F000001#32 = true ∧ 1 / 2 < F32.toRat 0x3F000001#32 ∧ 1 ≤ (1#16).toNat ∧ 1 ≤ (65535#16).toNat :=
  ⟨by decide, witness_above_half, by decide, by decide⟩
theorem witness_RoundingIsTheAlgorithmOfR152 :
    (10 : Nat) ≠ 0 ∧ |((6 : Int) : Rat) / (10 : Nat) / 2 ^ 149| < 2 ^ 127 := by norm_num
theorem witness_RoundingIsMonotone :
    F32.inDomain (-7) 3 = true ∧ F32.inDomain (2 ^ 276 - 1) 1 = true ∧ (-7 : Int) * (1 : Nat) ≤ (2 ^ 276 - 1) * (3 : Nat) := by
  decide
theorem witness_RoundingIsOdd : F32.inDomain (2 ^ 276 - 1) 1 = true ∧ F32.inDomain 0 7 = true := by decide
theorem witness_RoundingFixesRepresentableValues :
    (F32.finite 0x7EFFFFFF#32 = true ∧ 0x7EFFFFFF#32 ≠ 0x80000000#32 ∧ (F32.val 0x7EFFFFFF#32).natAbs < 2 ^ 276) ∧
    (F32.finite 0x80000001#32 = true ∧ 0x80000001#32 ≠ 0x80000000#32 ∧ (F32.val 0x80000001#32).natAbs < 2 ^ 276) := by
  decide
theorem witness_RelativeErrorOfARoundingIsAtMostTwoToTheMinus24 :
    F32.inDomain (2 ^ 23) 1 = true ∧ 1 / 2 ^ 126 ≤ |((2 ^ 23 : Int) : Rat) / (1 : Nat) / 2 ^ 149| := by
  refine ⟨by decide, ?_⟩
  norm_num
theorem witness_RampApproachesAndNeverOvershoots :
    F32.val 0x00000000#32 < F32.val 0x3F800000#32 ∧ F32.val 0xBF800000#32 < F32.val 0xBEF9DB23#32 ∧
    F32.val 0x3F800000#32 = F32.val 0x3F800000#32 := by decide
theorem witness_RampSettlesWithinSixtyOneTicks :
    legalSpeed 0x47800000#32 = true ∧ legalSpeed 0xC7800000#32 = true ∧ 61 ≤ 61 := by decide
theorem witness_SpeedsStayInRange :
    State.reset.SpeedRule ∧ ∃ t, step (pulsing (ideal 1)) = .next t := ⟨⟨by decide, by decide⟩, _, rfl⟩
theorem witness_ThresholdGatesAWholeRamp :
    (moving 0x3F000000#32 0x3F000000#32 []).SpeedRule ∧ F32.toRat 0x3F000000#32 ≤ 1 / 2 ∧
    (moving 0x3F000001#32 0x3F000001#32 []).SpeedRule ∧ 1 / 2 < F32.toRat 0x3F000001#32 :=
  ⟨⟨by decide, by decide⟩, witness_at_half, ⟨by decide, by decide⟩, witness_above_half⟩
theorem witness_HasNextWithBytesPending :
    opField 0x8DEADBEEF#36 = 0x8#4 ∧ (holding []).env.quiet = true ∧ (holding []).rdc ≠ (holding []).flc := by decide
theorem witness_HasNextDrainsAnEmptyBuffer :
    let s := waiting [0x47#8, 0x31#8] (ideal 9)
    s.env.quiet = true ∧ s.rdc = s.flc ∧ s.flc.toNat ≤ 32 := by decide
theorem witness_DrainAppendsAByteThenPauses :
    (let s := waiting [0x47#8, 0x31#8] (ideal 9)
     s.env.quiet = true ∧ s.env.tq ++ s.env.move.arrivals = 0x47#8 :: [0x31#8] ∧ s.flc.toNat < 32) ∧
    (waiting [] (ideal 1)).env.tq ++ (waiting [] (ideal 1)).env.move.arrivals = [] ∧
    32 ≤ ({ State.reset with flc := 32#6 } : State).flc.toNat := by decide
theorem witness_GetNextRemovesTheOldestByte :
    opField 0x900000000#36 = 0x9#4 ∧ State.reset.rdc = State.reset.flc ∧
    (let s := { holding [] with rxbuf := [(31, 0x20#8)], rdc := 31#6, flc := 32#6 }
     s.env.quiet = true ∧ s.rdc ≠ s.flc ∧ s.rdc.toNat < 32 ∧ s.rxbuf.read s.rdc.toNat = some 0x20#8) := by decide
theorem witness_OnlyAnIndexOutsideTheBufferStops :
    let s := { State.reset with rdc := 32#6 }
    s.rdc ≠ s.flc ∧ 32 ≤ s.rdc.toNat ∧ exec .getNext s = .fault .bufferIndexOutOfRange :=
  ⟨by decide, by decide, rfl⟩
theorem witness_bufferRule : State.reset.BufferRule ∧ (holding (ideal 3)).BufferRule :=
  ⟨⟨by decide, by decide, by decide, fun i _ h => absurd h (Nat.not_lt_zero i), by decide⟩,
    ⟨by decide, by decide, by decide, fun
      | 0, _, _ => rfl
      | 1, _, _ => rfl
      | _ + 2, _, h => absurd (show _ + 2 < 2 from h) (by omega), by decide⟩⟩
theorem witness_CursorRuleIsKept : ∃ t, step (holding (ideal 3)) = .next t := ⟨_, rfl⟩
theorem witness_BytesFlowInOrder :
    (∃ t, exec .getNext (holding (ideal 3)) = .next t) ∧ (holding (ideal 3)).pending = [0x47#8, 0x31#8] ∧
    State.reset.pending = [] ∧ ∃ t, exec .hasNext (waiting [0x47#8] (ideal 9)) = .next t :=
  ⟨⟨_, rfl⟩, by decide, by decide, _, rfl⟩
theorem witness_OnlyADrainReadsTheTransport :
    (holding (ideal 3)).rdc ≠ (holding (ideal 3)).flc ∧ (∃ t, exec .hasNext (holding (ideal 3)) = .next t) ∧
    ∃ t, exec .getEn (holding (ideal 3)) = .next t := ⟨by decide, ⟨_, rfl⟩, _, rfl⟩
theorem witness_RdRegAnswersTheStatusWindow :
    opField 0x700000013#36 = 0x7#4 ∧ (after (ideal 1)).env.quiet = true ∧ (after (ideal 1)).IdleRule :=
  ⟨by decide, by decide, by decide, by decide, by decide⟩
theorem witness_ReservedOpcodesAnswerIllegalOp :
    Instr.reserved0.isReserved = true ∧ Instr.reservedF.isReserved = true := by decide
theorem witness_EveryCommandAnswersExactlyOnce :
    (holding (ideal 3)).env.quiet = true ∧ (holding (ideal 3)).BufferRule := ⟨by decide, witness_bufferRule.2⟩
theorem witness_EachRegisterHasItsOneWriter : ∃ t, exec (.move 2) (pulsing (ideal 8)) = .next t := ⟨_, rfl⟩
theorem witness_DurAndWorkingRegistersHaveNoEffect :
    Instr.rdReg 4 ≠ .rdReg 5 ∧ ∃ t, exec (.rdReg 4) (after (ideal 1)) = .next t := ⟨by decide, _, rfl⟩
theorem witness_ParametersNeverChange :
    (∃ t, step (after [strike]) = .next t) ∧ ∃ t, step ((after (ideal 5)).withFetchWord 40 0x6000001F4) = .next t :=
  ⟨⟨_, rfl⟩, _, rfl⟩
theorem witness_TimeNeverRunsBackwards : ∃ t, step (after [late 7]) = .next t := ⟨_, rfl⟩
theorem witness_StepKeepsTheIdleInvariant : (holding (ideal 3)).Inv :=
  { buffer := witness_bufferRule.2
    speeds := ⟨by decide, by decide⟩
    idle := ⟨by decide, by decide, by decide⟩
    params := ⟨by decide, by decide⟩ }

end Sys2Proof.Tests
end

section
/-! SUPPORT. Who writes the parameters: no one. Each shared part of a command leaves them, so every command does, and
so does everything else that a step can be (00_scope.md R7, 10_state.md R24, R35). -/

namespace Sys2Proof.Machine

/-! ### What a step can be, and what a command's outcome is -/

/-- Everything a step can do, with the guard of each: a reset while no command runs (R210), a step in which the idle
sequencer finds no word, a step of a busy sequencer, or the whole command of the word on the port (R86). -/
theorem step_cases {s t : State} (h : step s = .next t) :
    (s.env.struck = true ∧ t = s.beforePort.blockReset) ∨
    (s.env.struck = false ∧ s.beforePort.cmdReady = true ∧ s.beforePort.cmdPort = none ∧
      t = s.beforePort.unoffered) ∨
    (s.env.struck = false ∧ s.beforePort.cmdReady = false ∧ t = s.beforePort) ∨
    ∃ w, s.env.struck = false ∧ s.beforePort.cmdReady = true ∧ s.beforePort.cmdPort = some w ∧
      exec (decode w) (s.beforePort.accept (opField w) (argField w)) = .next t := by
  unfold step State.offer at h
  cases hs : s.env.struck with
  | true => simp_all
  | false =>
    cases hr : s.beforePort.cmdReady with
    | false => simp_all
    | true => cases hp : s.beforePort.cmdPort <;> simp_all

/-- A command answers next with the state it leaves. -/
theorem Progress.outcome_eq_next {p : Progress} {t : State} : p.outcome = .next t ↔ p.state = t :=
  ⟨Host.Outcome.next.inj, congrArg Host.Outcome.next⟩

/-! ### The parts of a command leave the parameters -/

/-- When the rest of a command leaves the parameters, the whole leaves what its first part does; an abandoned command
has no rest. -/
@[simp] theorem Progress.andThen_params {f : State → Progress} (hf : ∀ s, (f s).state.params = s.params)
    (p : Progress) : (p.andThen f).state.params = p.state.params := by
  cases p with
  | running s => exact hf s
  | abandoned s => rfl

@[simp] theorem State.gap_params (s : State) : s.gap.state.params = s.params := by
  rcases s.gap_cases with h | h <;> simp [h]

@[simp] theorem State.wait_params (s : State) (t d : Word) : (s.wait t d).state.params = s.params := by
  rcases s.wait_cases t d with h | h <;> simp [h]

@[simp] theorem State.respond_params (s : State) (st : Status) (data : Word) :
    (s.respond st data).state.params = s.params := by
  rcases s.respond_cases st data with h | h <;> simp [h]

@[simp] theorem State.moveStep_params (s : State) (dur : Word) : (s.moveStep dur).state.params = s.params := by
  simp [State.moveStep]

@[simp] theorem State.pulses_params (dur : Word) (n : Nat) (s : State) :
    (State.pulses dur n s).state.params = s.params := by
  induction n generalizing s with
  | zero => rfl
  | succ n ih => simp [State.pulses, ih]

@[simp] theorem State.pause_params (s : State) : s.pause.state.params = s.params := by
  simp [State.pause]

@[simp] theorem State.drainLoop_params (n : Nat) (s : State) : (State.drainLoop n s).state.params = s.params := by
  induction n generalizing s with
  | zero => rfl
  | succ n ih =>
    rw [State.drainLoop, Progress.andThen_params, State.gap_params]
    intro u
    split
    · split
      · simp [ih]
      · rfl
    · rfl

/-! ### Every command leaves the parameters -/

/-- A command's answer has the parameters of the state the command leaves. -/
theorem Progress.params_of_outcome {p : Progress} {s t : State} (h : p.outcome = .next t)
    (hp : p.state.params = s.params) : t.params = s.params :=
  Progress.outcome_eq_next.mp h ▸ hp

theorem exec_params {i : Instr} {s t : State} (h : exec i s = .next t) : t.params = s.params := by
  cases i with
  | setEn _ | getEn | setDir _ | step _ => exact Progress.params_of_outcome h (by simp)
  | reserved0 | reservedA | reservedB | reservedC | reservedD | reservedE | reservedF =>
    exact Progress.params_of_outcome h (State.respond_params ..)
  | setTgt p =>
    refine Progress.params_of_outcome h ?_
    split <;> simp
  | move n =>
    refine Progress.params_of_outcome h ?_
    rw [Progress.andThen_params, State.gap_params]
    intro u
    dsimp only
    split <;> simp
  | rdReg idx =>
    refine Progress.params_of_outcome h ?_
    split <;> simp
  | hasNext =>
    refine Progress.params_of_outcome h ?_
    split <;> simp [State.drain]
  | getNext =>
    simp only [exec, execGetNext] at h
    split at h
    · exact Progress.params_of_outcome h (by simp)
    · split at h
      · exact Progress.params_of_outcome h (by simp)
      · cases h

/-- Settles O53: neither reset nor a step without a command writes a parameter, and no command does. -/
theorem parametersNeverChange : Obligations.ParametersNeverChange := by
  intro s t h
  rcases step_cases h with ⟨-, rfl⟩ | ⟨-, -, -, rfl⟩ | ⟨-, -, rfl⟩ | ⟨w, -, -, -, h⟩
  · simp
  · simp
  · simp
  · simpa using exec_params h

end Sys2Proof.Machine
end

section
/-! SUPPORT. What a command can do, said once: the effect that the spec gives it, or the reset state where a planned
reset has abandoned it (70_reset_and_hazards.md R212). The rule of the cursors and the one writer of each element are
read off it (10_state.md R20 to R31, R218). -/

namespace Sys2Proof.Machine

/-! ### What a part of a command does -/

/-- What a part of a command that begins in the environment `e` can do: it runs on and leaves a state that meets `E`,
or reset has abandoned it. No reset is planned later that was not planned before, and none strikes unplanned. -/
structure Progress.Does (p : Progress) (e : Env) (E : State → Prop) : Prop where
  runs : ∀ {t}, p = .running t → E t ∧ (e.quiet = true → t.env.quiet = true)
  cut : ∀ {t}, p = .abandoned t → t.blockReset = t ∧ ¬ e.quiet = true

/-- The part does what its inversion lemma says, where it is cut it leaves the reset state, and it is not cut when no
reset is planned. -/
theorem Progress.Does.of_part {p : Progress} {s : State} {E : State → Prop}
    (hr : ∀ {t}, p = .running t → E t ∧ ∃ k bs, s.env.After k bs t.env)
    (ha : ∀ {t}, p = .abandoned t → CutFrom s t) (hq : s.env.quiet = true → ∃ t, p = .running t) :
    p.Does s.env E where
  runs h := by
    obtain ⟨hE, k, bs, he⟩ := hr h
    exact ⟨hE, he.quiet⟩
  cut h := by
    refine ⟨(ha h).reset, fun q => ?_⟩
    obtain ⟨u, hu⟩ := hq q
    cases h.symm.trans hu

/-- The parts of a command, one after the other. -/
theorem Progress.Does.andThen {p : Progress} {e : Env} {E F : State → Prop} {f : State → Progress}
    (hp : p.Does e E) (hf : ∀ u, E u → (f u).Does u.env F) : (p.andThen f).Does e F := by
  cases p with
  | running u =>
    obtain ⟨hE, hq⟩ := hp.runs rfl
    exact
      { runs := fun h => ((hf u hE).runs h).imp_right (· ∘ hq)
        cut := fun h => ((hf u hE).cut h).imp_right (· ∘ hq) }
  | abandoned u =>
    exact
      { runs := fun h => by cases h
        cut := fun h => hp.cut h }

theorem Progress.Does.imp {p : Progress} {e : Env} {E F : State → Prop} (hp : p.Does e E) (h : ∀ t, E t → F t) :
    p.Does e F :=
  { hp with runs := fun ht => (hp.runs ht).imp_left (h _) }

/-- `t` is `s` when it has answered: the effects of the command stand in `s`, and since then only the environment and
the record have gone on. -/
def Answered (s t : State) : Prop :=
  ∃ r e os, t = { s with phase := .idle, rsp := some r, env := e, obs := os }

theorem State.gap_does (s : State) : s.gap.Does s.env (· = s.withEnv s.env.pass) :=
  .of_part (fun h => by cases State.gap_running h; exact ⟨rfl, _, _, Env.after_pass _⟩) State.gap_abandoned
    fun q => ⟨_, State.gap_quiet q⟩

/-- The part after a gap begins when the environment has moved. -/
theorem State.gap_andThen_does {s : State} {f : State → Progress} {F : State → Prop}
    (h : (f (s.withEnv s.env.pass)).Does s.env.pass F) : (s.gap.andThen f).Does s.env F :=
  s.gap_does.andThen fun _ hu => hu ▸ h

theorem State.respond_does (s : State) (st : Status) (data : Word) :
    (s.respond st data).Does s.env (Answered s) :=
  .of_part (fun h => by cases State.respond_running h; exact ⟨⟨_, _, _, rfl⟩, _, _, Env.after_pass _⟩)
    State.respond_abandoned fun q => ⟨_, State.respond_quiet st data q⟩

/-- A step pulse writes `DUR`, the step pin and the working registers (R135). -/
theorem State.moveStep_does (s : State) (dur : Word) : (s.moveStep dur).Does s.env fun t =>
    ∃ w e os, t = { s with dur := dur, pinStep := false, work := w, env := e, obs := os } :=
  .of_part
    (fun h => by
      obtain ⟨gap, e1, e2, e, rfl, -, -, -, he⟩ := State.moveStep_running h
      exact ⟨⟨_, _, _, rfl⟩, _, _, he⟩)
    State.moveStep_abandoned (State.moveStep_quiet dur)

/-- A train of pulses writes no other element than one pulse (R156). -/
theorem State.pulses_does (s : State) (dur : Word) (n : Nat) : (State.pulses dur n s).Does s.env fun t =>
    ∃ d l w e os, t = { s with dur := d, pinStep := l, work := w, env := e, obs := os } :=
  .of_part
    (fun h => by
      obtain ⟨ps, w, e, rfl, -, -, -, -, -, he⟩ := State.pulses_running h
      exact ⟨⟨_, _, _, _, _, rfl⟩, _, _, he⟩)
    State.pulses_abandoned (State.pulses_quiet dur n)

theorem State.drain_does (s : State) : s.drain.Does s.env fun t => s.drain = .running t :=
  .of_part
    (fun h => by
      obtain ⟨taken, m, w, e, k, rfl, he, -⟩ := State.drainLoop_running h
      exact ⟨h, _, _, he⟩)
    State.drainLoop_abandoned (State.drainLoop_quiet _)

/-! ### What a command does -/

/-- The effect of each command: what stands in the state when it has answered. -/
def Effect (i : Instr) (s t : State) : Prop :=
  match i with
  | .setEn b => Answered { s with en := b, pinEn := enableLevel b } t
  | .setDir d => Answered { s with pinDir := directionLevel d } t
  | .setTgt p => Answered (if targetRefused p then s else { s with tgt := targetStored p }) t
  | .move _ => ∃ d l w, Answered { s with cur := rampTick s.cur s.tgt, dur := d, pinStep := l, work := w } t
  | .step u => ∃ w, Answered { s with dur := wordOfU u, pinStep := false, work := w } t
  | .hasNext => ∃ u, (s.rdc = s.flc ∧ s.drain = .running u ∨ s.rdc ≠ s.flc ∧ u = s) ∧ Answered u t
  | .getNext => Answered (if s.rdc = s.flc then s else s.removeRx) t
  | .getEn | .rdReg _ => Answered s t
  | .reserved0 | .reservedA | .reservedB | .reservedC | .reservedD | .reservedE | .reservedF => Answered s t

/-- A command whose parts do `E` ends so, or in the reset state when a reset was planned. -/
theorem Progress.Does.outcome {p : Progress} {e : Env} {E : State → Prop} {t : State} (hp : p.Does e E)
    (h : p.outcome = .next t) : E t ∨ (t.blockReset = t ∧ ¬ e.quiet = true) := by
  cases p with
  | running u =>
    cases h
    exact .inl (hp.runs rfl).1
  | abandoned u =>
    cases h
    exact .inr (hp.cut rfl)

/-- Everything a command can do. -/
theorem exec_cases {i : Instr} {s t : State} (h : exec i s = .next t) :
    Effect i s t ∨ (t.blockReset = t ∧ ¬ s.env.quiet = true) := by
  cases i with
  | reserved0 | reservedA | reservedB | reservedC | reservedD | reservedE | reservedF | getEn =>
    exact (State.respond_does ..).outcome h
  | rdReg idx =>
    refine Progress.Does.outcome (E := Answered s) ?_ h
    split <;> exact State.respond_does ..
  | setEn _ | setDir _ => exact (State.gap_andThen_does (State.respond_does ..)).outcome h
  | setTgt p =>
    refine Progress.Does.outcome (E := Answered (if targetRefused p then s else _)) ?_ h
    split
    · exact State.respond_does ..
    · exact State.gap_andThen_does (State.respond_does ..)
  | move n =>
    refine (State.gap_andThen_does ?_).outcome h
    dsimp only
    split
    · refine (State.pulses_does ..).andThen ?_
      rintro _ ⟨d, l, w, e, os, rfl⟩
      dsimp only
      exact Progress.Does.imp (State.respond_does ..) fun t ht => ⟨d, l, w, ht⟩
    · exact Progress.Does.imp (State.respond_does ..) fun t ht => ⟨s.dur, s.pinStep, s.work, ht⟩
  | step u =>
    refine ((s.moveStep_does (wordOfU u)).andThen ?_).outcome h
    rintro _ ⟨w, e, os, rfl⟩
    exact Progress.Does.imp (State.respond_does ..) fun t ht => ⟨w, ht⟩
  | hasNext =>
    refine Progress.Does.outcome (E := Effect .hasNext s) ?_ h
    split
    · rename_i hc
      refine s.drain_does.andThen fun u hu => ?_
      exact Progress.Does.imp (State.respond_does ..) fun t ht => ⟨u, .inl ⟨hc, hu⟩, ht⟩
    · rename_i hc
      exact Progress.Does.imp (State.respond_does ..) fun t ht => ⟨s, .inr ⟨hc, rfl⟩, ht⟩
  | getNext =>
    change Answered (if s.rdc = s.flc then s else s.removeRx) t ∨ _
    simp only [exec, execGetNext] at h
    split at h
    · rw [if_pos ‹_›]
      exact (State.respond_does ..).outcome h
    · rw [if_neg ‹_›]
      split at h
      · exact (State.gap_andThen_does (State.respond_does ..)).outcome h
      · cases h

/-! ### The rule of the cursors (10_state.md R31) -/

/-- The rule speaks of the cursors and the cells only. -/
theorem State.BufferRule.congr {s t : State} (h : s.BufferRule) (hr : t.rdc = s.rdc) (hf : t.flc = s.flc)
    (hb : t.rxbuf = s.rxbuf) : t.BufferRule where
  ordered := hr ▸ hf ▸ h.ordered
  bounded := hf ▸ h.bounded
  emptied := hr ▸ hf ▸ h.emptied
  written := hr ▸ hf ▸ hb ▸ h.written
  canonical := hb ▸ h.canonical

theorem Answered.bufferRule {s t : State} (ha : Answered s t) (h : s.BufferRule) : t.BufferRule := by
  obtain ⟨r, e, os, rfl⟩ := ha
  exact h.congr rfl rfl rfl

/-- With both cursors at 0 no cell is pending. -/
theorem State.BufferRule.of_zero {s : State} (hr : s.rdc = 0#6) (hf : s.flc = 0#6) (hb : s.rxbuf.wf = true) :
    s.BufferRule where
  ordered := by simp [hr]
  bounded := by simp [hf]
  emptied _ := ⟨hr, hf⟩
  written i _ hi := by simp [hf] at hi
  canonical := hb

theorem State.blockReset_bufferRule (s : State) : s.blockReset.BufferRule := .of_zero rfl rfl Memory.wf_reset

/-- A read cursor below the fill cursor stays within it when it advances, and both are reset when it reaches it. -/
theorem State.BufferRule.removeRx {s : State} (h : s.BufferRule) (hne : s.rdc ≠ s.flc) : s.removeRx.BufferRule := by
  by_cases hlast : s.rdc + 1 = s.flc
  · exact .of_zero (if_pos hlast) (if_pos hlast) h.canonical
  · have hr : s.removeRx.rdc = s.rdc + 1 := if_neg hlast
    have hf : s.removeRx.flc = s.flc := if_neg hlast
    have hlt : s.rdc.toNat < s.flc.toNat := lt_of_le_of_ne h.ordered (hne ∘ BitVec.eq_of_toNat_eq)
    have hsucc : (s.rdc + 1).toNat = s.rdc.toNat + 1 := Cursor.toNat_succ (hlt.trans_le h.bounded)
    exact
      { ordered := by rw [hr, hf]; omega
        bounded := hf ▸ h.bounded
        emptied := fun he => absurd (hr ▸ hf ▸ he) hlast
        written := fun i hi hi' => h.written i (by rw [hr] at hi; omega) (hf ▸ hi')
        canonical := h.canonical }

/-- The drain stores a byte in every cell that it moves the fill cursor over (R114). -/
theorem State.BufferRule.drain {s t : State} (h : s.BufferRule) (hd : s.drain = .running t) : t.BufferRule := by
  obtain ⟨taken, m, w, e, k, rfl, -, -, -, -, hle, -, hnew, hold, hwf, -⟩ := State.drainLoop_running hd
  have hb : s.flc.toNat ≤ 32 := h.bounded
  have hcap : s.flc.toNat + taken.length ≤ 32 := by
    by_cases ht : taken = []
    · simpa [ht] using hb
    · exact hle ht
  have hflc : (s.flc + BitVec.ofNat 6 taken.length).toNat = s.flc.toNat + taken.length := by
    rw [BitVec.toNat_add, BitVec.toNat_ofNat]
    omega
  have ho := h.ordered
  exact
    { ordered := by simp only [hflc]; omega
      bounded := by simp only [hflc]; exact hcap
      emptied := fun he => by
        have hlen : taken.length = 0 := by
          have := congrArg BitVec.toNat he
          simp only [hflc] at this
          omega
        simpa [hlen] using h.emptied (by simpa [hlen] using he)
      written := fun i hi hi' => by
        simp only [hflc] at hi'
        by_cases hlt : i < s.flc.toNat
        · simpa [hold i (.inl hlt)] using h.written i hi hlt
        · obtain ⟨j, rfl⟩ := Nat.exists_eq_add_of_le (Nat.le_of_not_lt hlt)
          simp [hnew j (by omega)]
      canonical := hwf h.canonical }

theorem Effect.bufferRule {i : Instr} {s t : State} (he : Effect i s t) (h : s.BufferRule) : t.BufferRule := by
  cases i with
  | reserved0 | reservedA | reservedB | reservedC | reservedD | reservedE | reservedF | getEn | rdReg _ =>
    exact Answered.bufferRule he h
  | setEn _ | setDir _ => exact Answered.bufferRule he (h.congr rfl rfl rfl)
  | setTgt p =>
    refine Answered.bufferRule he ?_
    split
    · exact h
    · exact h.congr rfl rfl rfl
  | move n =>
    obtain ⟨d, l, w, he⟩ := he
    exact Answered.bufferRule he (h.congr rfl rfl rfl)
  | step u =>
    obtain ⟨w, he⟩ := he
    exact Answered.bufferRule he (h.congr rfl rfl rfl)
  | hasNext =>
    obtain ⟨u, ⟨-, hd⟩ | ⟨-, rfl⟩, he⟩ := he
    · exact he.bufferRule (h.drain hd)
    · exact Answered.bufferRule he h
  | getNext =>
    refine Answered.bufferRule he ?_
    split
    · exact h
    · exact h.removeRx ‹_›

theorem exec_bufferRule {i : Instr} {s t : State} (hx : exec i s = .next t) (h : s.BufferRule) : t.BufferRule := by
  rcases exec_cases hx with he | ⟨hreset, -⟩
  · exact he.bufferRule h
  · exact hreset ▸ t.blockReset_bufferRule

/-- Settles O45: reset leaves both cursors at 0, a step without a command leaves the buffer alone, and every command
keeps the rule. -/
theorem cursorRuleIsKept : Obligations.CursorRuleIsKept := by
  refine ⟨State.reset.blockReset_bufferRule, fun s t h hs => ?_⟩
  rcases step_cases hs with ⟨-, rfl⟩ | ⟨-, -, -, rfl⟩ | ⟨-, -, rfl⟩ | ⟨w, -, -, -, hx⟩
  · exact State.blockReset_bufferRule _
  · exact h.congr rfl rfl rfl
  · exact h.congr rfl rfl rfl
  · exact exec_bufferRule hx (h.congr rfl rfl rfl)

/-! ### The one writer of each element (10_state.md R20 to R26, R30, R218) -/

/-- Settles O51: with no reset planned every command has its effect, and the effect names what it writes. -/
theorem eachRegisterHasItsOneWriter : Obligations.EachRegisterHasItsOneWriter := by
  intro i s t hq hx
  have he : Effect i s t := (exec_cases hx).resolve_right fun hcut => hcut.2 hq
  cases i with
  | reserved0 | reservedA | reservedB | reservedC | reservedD | reservedE | reservedF | getEn | rdReg _ | setEn _
  | setDir _ =>
    obtain ⟨r, e, os, rfl⟩ := he
    simp
  | setTgt p =>
    obtain ⟨r, e, os, rfl⟩ := he
    split <;> simp
  | move n =>
    obtain ⟨d, l, w, r, e, os, rfl⟩ := he
    simp
  | step u =>
    obtain ⟨w, r, e, os, rfl⟩ := he
    simp
  | hasNext =>
    obtain ⟨u, ⟨-, hd⟩ | ⟨-, rfl⟩, r, e, os, rfl⟩ := he
    · obtain ⟨taken, m, w, e, k, rfl, -⟩ := State.drainLoop_running hd
      simp
    · simp
  | getNext =>
    obtain ⟨r, e, os, rfl⟩ := he
    split <;> simp

end Sys2Proof.Machine
end

section
/-! SUPPORT. `DUR` and the working registers have no effect on behaviour (10_state.md R26, R32): two runs that differ in
them alone go the same way, part by part, and differ in them alone at the end. -/

namespace Sys2Proof.Machine

/-- The same state with other values in `DUR` and the working registers. -/
def State.withScratch (s : State) (d : Word) (w : Work) : State := { s with dur := d, work := w }

@[simp] theorem State.withScratch_rdc (s : State) (d : Word) (w : Work) : (s.withScratch d w).rdc = s.rdc := rfl
@[simp] theorem State.withScratch_flc (s : State) (d : Word) (w : Work) : (s.withScratch d w).flc = s.flc := rfl
@[simp] theorem State.withScratch_rxData (s : State) (d : Word) (w : Work) :
    (s.withScratch d w).rxData = s.rxData := rfl

/-- Two runs of one part of a command: both run on, to states that differ in `DUR` and the working registers alone, or
reset has abandoned both, with the same reset values. -/
inductive Progress.Alike : Progress → Progress → Prop
  | running (s : State) (d : Word) (w : Work) : Alike (.running (s.withScratch d w)) (.running s)
  | abandoned (s : State) : Alike (.abandoned s) (.abandoned s)

/-- A part of a command that does not depend on `DUR` and the working registers. -/
def ScratchBlind (f : State → Progress) : Prop := ∀ s d w, (f (s.withScratch d w)).Alike (f s)

/-- The parts of a command, one after the other. -/
theorem Progress.Alike.andThen {p q : Progress} {f : State → Progress} (h : p.Alike q) (hf : ScratchBlind f) :
    (p.andThen f).Alike (q.andThen f) := by
  cases h with
  | running s d w => exact hf s d w
  | abandoned s => exact .abandoned s

/-- A choice that both runs make alike. -/
theorem Progress.Alike.ite {c : Prop} [Decidable c] {p p' q q' : Progress} (h : p.Alike q) (h' : p'.Alike q') :
    (if c then p else p').Alike (if c then q else q') := by
  split
  · exact h
  · exact h'

theorem ScratchBlind.andThen {f g : State → Progress} (hf : ScratchBlind f) (hg : ScratchBlind g) :
    ScratchBlind fun s => (f s).andThen g :=
  fun s d w => (hf s d w).andThen hg

/-! ### The parts of a command -/

theorem scratchBlind_gap : ScratchBlind State.gap :=
  fun s d w => .ite (.abandoned _) (.running (s.withEnv s.env.pass) d w)

theorem scratchBlind_respond (st : Status) (data : Word) : ScratchBlind fun s => s.respond st data :=
  scratchBlind_gap.andThen fun s d w => .running (s.answer _) d w

/-- A wait from values that both runs share. -/
theorem State.wait_alike (s : State) (d : Word) (w : Work) (t l : Word) :
    ((s.withScratch d w).wait t l).Alike (s.wait t l) :=
  .ite (.abandoned _) (.running (s.withEnv (s.env.waitFrom t l)) d w)

theorem State.wait_of_struck {s : State} (h : s.env.struck = true) (t l : Word) :
    s.wait t l = .abandoned (s.withEnv s.env.pass).blockReset := by
  simp [State.wait, h]

theorem State.wait_of_not_struck {s : State} (h : s.env.struck = false) (t l : Word) :
    s.wait t l = .running (s.withEnv (s.env.waitFrom t l)) := by
  simp [State.wait, h]

/-- A pulse writes `T0`, `E1` and `REM` before it reads them (R135): after the first wait both runs hold the same `T0`,
so the second wait is the same. -/
theorem scratchBlind_moveStep (dur : Word) : ScratchBlind fun s => s.moveStep dur := by
  refine scratchBlind_gap.andThen fun s d w => ?_
  cases hs : s.env.struck with
  | true =>
    rw [State.wait_of_struck (s := (s.withScratch d w).pulseHigh dur) hs,
      State.wait_of_struck (s := s.pulseHigh dur) hs]
    exact .abandoned _
  | false =>
    rw [State.wait_of_not_struck (s := (s.withScratch d w).pulseHigh dur) hs,
      State.wait_of_not_struck (s := s.pulseHigh dur) hs]
    exact State.wait_alike (((s.pulseHigh dur).withEnv (s.env.waitFrom s.env.now (dur >>> 1))).pulseLow dur) _ _ _ _

theorem scratchBlind_pulses (dur : Word) (n : Nat) : ScratchBlind (State.pulses dur n) := by
  induction n with
  | zero => exact fun s d w => .running s d w
  | succ n ih =>
    refine (scratchBlind_moveStep dur).andThen fun s d w => ?_
    exact ih { s with work := { s.work with nleft := wordOfU n } } d { w with nleft := wordOfU n }

theorem scratchBlind_pause : ScratchBlind State.pause :=
  scratchBlind_gap.andThen fun s d w =>
    State.wait_alike { s with work := { s.work with t0 := s.env.now } } d { w with t0 := s.env.now } _ _

theorem scratchBlind_drainLoop (n : Nat) : ScratchBlind (State.drainLoop n) := by
  induction n with
  | zero => exact fun s d w => .running s d w
  | succ n ih =>
    refine scratchBlind_gap.andThen fun s d w => ?_
    rw [State.withScratch_rxData]
    cases s.rxData with
    | none => exact .running s d w
    | some b =>
      exact .ite ((scratchBlind_pause.andThen ih) (s.appendRx b) d w) (.running s d w)

/-- What `MOVE n` does after its ramp tick (R156). -/
theorem scratchBlind_train (n : Nat) : ScratchBlind fun s =>
    if aboveThreshold s.cur then
      (State.pulses (stepDuration s.cur s.params.spr) n
        { s with work := { s.work with nleft := wordOfU n } }).andThen fun s => s.respond .ok (wordOfU n)
    else s.respond .ok 0#32 := by
  refine fun s d w => .ite ?_ (scratchBlind_respond _ _ s d w)
  exact (scratchBlind_pulses _ n).andThen (scratchBlind_respond _ _)
    { s with work := { s.work with nleft := wordOfU n } } d { w with nleft := wordOfU n }

/-! ### The commands -/

/-- Two runs of a command that are alike end in the same state, `DUR` and the working registers apart. -/
theorem Progress.Alike.outcome {p q : Progress} {t : State} (h : p.Alike q) (hq : q.outcome = .next t) :
    ∃ t', p.outcome = .next t' ∧ t'.withScratch t.dur t.work = t := by
  cases h with
  | running s d w =>
    cases hq
    exact ⟨_, rfl, rfl⟩
  | abandoned s =>
    cases hq
    exact ⟨_, rfl, rfl⟩

/-- The status window shows `DUR` at index 5 only, and no working register (R181). -/
theorem State.statusWord_withScratch (s : State) (d : Word) (w : Work) {idx : Nat} (h : idx ≠ 5) :
    (s.withScratch d w).statusWord idx = s.statusWord idx := by
  match idx, h with
  | 0, _ | 1, _ | 2, _ | 3, _ | 4, _ => rfl
  | 5, h => exact absurd rfl h
  | _ + 6, _ => rfl

/-- Settles O52: every part of every command goes the same way whatever `DUR` and the working registers hold. -/
theorem durAndWorkingRegistersHaveNoEffect : Obligations.DurAndWorkingRegistersHaveNoEffect := by
  intro i s t d w hi hx
  change ∃ t', exec i (s.withScratch d w) = .next t' ∧ t'.withScratch t.dur t.work = t
  cases i with
  | reserved0 | reservedA | reservedB | reservedC | reservedD | reservedE | reservedF | getEn =>
    exact (scratchBlind_respond _ _ s d w).outcome hx
  | setEn b =>
    refine (scratchBlind_gap.andThen (fun u d w => ?_) s d w).outcome hx
    exact scratchBlind_respond .ok 0#32 { u.writePinEn (enableLevel b) with en := b } d w
  | setDir e =>
    refine (scratchBlind_gap.andThen (fun u d w => ?_) s d w).outcome hx
    exact scratchBlind_respond .ok 0#32 (u.writePinDir (directionLevel e)) d w
  | setTgt p =>
    refine Progress.Alike.outcome (.ite (scratchBlind_respond _ _ s d w) ?_) hx
    refine scratchBlind_gap.andThen (fun u d w => ?_) s d w
    exact scratchBlind_respond .ok 0#32 { u with tgt := targetStored p } d w
  | step u => exact ((scratchBlind_moveStep _).andThen (scratchBlind_respond _ _) s d w).outcome hx
  | move n =>
    refine (scratchBlind_gap.andThen (fun u d w => ?_) s d w).outcome hx
    dsimp only [State.withScratch]
    generalize rampTick u.cur u.tgt = c
    exact scratchBlind_train n { u with cur := c } d w
  | rdReg idx =>
    have hw := s.statusWord_withScratch d w (idx := idx) (by simpa using hi)
    refine Progress.Alike.outcome ?_ hx
    rw [hw]
    split
    · exact scratchBlind_respond _ _ s d w
    · exact scratchBlind_respond _ _ s d w
  | hasNext =>
    refine Progress.Alike.outcome (.ite ?_ (scratchBlind_respond _ _ s d w)) hx
    exact (scratchBlind_drainLoop _).andThen (fun u d w => scratchBlind_respond _ _ u d w) s d w
  | getNext =>
    simp only [exec, execGetNext] at hx
    rw [exec, execGetNext, State.withScratch_rdc, State.withScratch_flc]
    split at hx
    · rw [if_pos ‹_›]
      exact (scratchBlind_respond _ _ s d w).outcome hx
    · rw [if_neg ‹_›]
      split at hx
      · rw [if_pos ‹_›]
        refine (scratchBlind_gap.andThen (fun u d w => ?_) s d w).outcome hx
        exact scratchBlind_respond _ _ u.removeRx d w
      · cases hx

end Sys2Proof.Machine
end

section
/-! SUPPORT. The reset state's values, and the word that `withFetchWord` places (10_state.md R27, R35; 30_encoding.md
R86). -/

namespace Sys2Proof.Machine

/-- Settles O13: every value is read off the reset state. -/
theorem resetStateHoldsTheSpecsValues : Obligations.ResetStateHoldsTheSpecsValues := by
  refine ⟨rfl, rfl, rfl, rfl, rfl, rfl, rfl, rfl, rfl, rfl, rfl, ?_⟩
  decide

/-- A word presented to an idle sequencer, with no reset striking, is accepted and runs in this step (R86). -/
theorem step_of_cmdPort {s : State} {w : CmdWord} (hs : s.env.struck = false)
    (hr : s.beforePort.cmdReady = true) (hw : s.beforePort.cmdPort = some w) :
    step s = exec (decode w) (s.beforePort.accept (opField w) (argField w)) := by
  simp [step, State.offer, hs, hr, hw]

/-- Presenting a word takes reset out of the next move. -/
@[simp] theorem State.present_struck (s : State) (w : CmdWord) : (s.present w).env.struck = false := by
  cases h : s.env.script with
  | nil => simp [Env.struck, Env.move, clearRst, h]
  | cons m ms => simp [Env.struck, Env.move, clearRst, h]

/-- Settles O9: the placed word is on the port, the sequencer is idle, and no reset strikes. -/
theorem placedWordRunsNext : Obligations.PlacedWordRunsNext := by
  intro s _ w
  have hs := s.present_struck (BitVec.ofNat 36 w)
  exact ⟨hs, step_of_cmdPort hs rfl rfl⟩

end Sys2Proof.Machine
end

section
/-! SUPPORT. The receive buffer's one stop, and the commands that leave the transport alone (20_memory.md R61, R67;
40_rxfifo.md R111). -/

namespace Sys2Proof.Machine

/-! ### The one stop of any command (20_memory.md R61, 60_exceptions.md R190) -/

/-- With bytes pending and the read cursor outside the buffer `GETNEXT` stops. -/
theorem exec_getNext_of_outside {s : State} (hne : s.rdc ≠ s.flc) (hout : 32 ≤ s.rdc.toNat) :
    exec .getNext s = .fault .bufferIndexOutOfRange := by
  have hcap : ¬ s.rdc.toNat < Config.cap := Nat.not_lt.mpr hout
  simp only [exec, execGetNext, hne, hcap, if_false]

/-- With nothing pending, or the read cursor inside the buffer, `GETNEXT` runs. -/
theorem exec_getNext_of_inside {s : State} (h : s.rdc = s.flc ∨ s.rdc.toNat < 32) :
    ∃ t, exec .getNext s = .next t := by
  rw [exec, execGetNext]
  split
  · exact ⟨_, rfl⟩
  · have hcap : s.rdc.toNat < Config.cap := h.resolve_left ‹_›
    rw [if_pos hcap]
    exact ⟨_, rfl⟩

/-- Every command but `GETNEXT` is a course of parts, and a course ends in a state. -/
theorem exec_runs {i : Instr} (hi : i ≠ .getNext) (s : State) : ∃ t, exec i s = .next t := by
  cases i with
  | getNext => exact absurd rfl hi
  | reserved0 | reservedA | reservedB | reservedC | reservedD | reservedE | reservedF | setEn _ | getEn | setDir _
  | setTgt _ | move _ | step _ | rdReg _ | hasNext => exact ⟨_, rfl⟩

/-- Every command runs in every state, but for `GETNEXT` with bytes pending and the read cursor outside the buffer. -/
theorem exec_runs_or_outside (i : Instr) (s : State) :
    (∃ t, exec i s = .next t) ∨ (i = .getNext ∧ s.rdc ≠ s.flc ∧ 32 ≤ s.rdc.toNat) := by
  by_cases hi : i = .getNext
  · subst hi
    by_cases hin : s.rdc = s.flc ∨ s.rdc.toNat < 32
    · exact .inl (exec_getNext_of_inside hin)
    · rw [not_or, Nat.not_lt] at hin
      exact .inr ⟨rfl, hin⟩
  · exact .inl (exec_runs hi s)

/-- Settles O44: outside the one case every command runs, and in that case it stops with the named fault. -/
theorem onlyAnIndexOutsideTheBufferStops : Obligations.OnlyAnIndexOutsideTheBufferStops := by
  refine ⟨fun s hne hout => exec_getNext_of_outside hne hout, fun i s f hf => ?_, fun i s r hr => ?_⟩
  · refine (exec_runs_or_outside i s).resolve_left ?_
    rintro ⟨t, ht⟩
    cases hf.symm.trans ht
  · rcases exec_runs_or_outside i s with ⟨t, ht⟩ | ⟨rfl, hne, hout⟩
    · cases hr.symm.trans ht
    · cases hr.symm.trans (exec_getNext_of_outside hne hout)

/-! ### Parts of a command that read nothing from the transport (20_memory.md R67) -/

/-- From `s` to `t` no transport read is observed, and the transport holds what waited followed by what arrived. -/
def ReadsNothing (s t : State) : Prop := rxBytes t.obs = rxBytes s.obs ∧ s.env.Later t.env

theorem ReadsNothing.trans {s t u : State} (h : ReadsNothing s t) (g : ReadsNothing t u) : ReadsNothing s u :=
  ⟨g.1.trans h.1, h.2.trans g.2⟩

/-- Moves of the environment alone. -/
theorem ReadsNothing.of_later {s t : State} (he : s.env.Later t.env) (ho : t.obs = s.obs) : ReadsNothing s t :=
  ⟨congrArg rxBytes ho, he⟩

/-- A part that begins with a write of the block's own elements. -/
theorem ReadsNothing.after_write {s s' t : State} (h : ReadsNothing s' t) (he : s'.env = s.env)
    (ho : s'.obs = s.obs) : ReadsNothing s t :=
  (ReadsNothing.of_later (he ▸ Env.Later.refl _) ho).trans h

/-- An action of the sequencer whose one observation is no read. -/
theorem ReadsNothing.of_action {s t : State} {o : Obs} (ho : t.obs = s.obs ++ [o]) (hr : rxBytes [o] = [])
    (he : t.env = s.env) : ReadsNothing s t :=
  ⟨by simp [ho, hr], he ▸ Env.Later.refl _⟩

/-- The parts of a command, one after the other; an abandoned command has no later part. -/
theorem ReadsNothing.andThen {s : State} {p : Progress} {f : State → Progress} (hp : ReadsNothing s p.state)
    (hf : ∀ u, ReadsNothing u (f u).state) : ReadsNothing s (p.andThen f).state := by
  cases p with
  | running u => exact hp.trans (hf u)
  | abandoned u => exact hp

theorem State.gap_readsNothing (s : State) : ReadsNothing s s.gap.state := by
  rcases s.gap_cases with h | h
  · exact h ▸ .of_later (Env.later_pass _) rfl
  · exact h ▸ .of_later (Env.later_pass _) rfl

theorem State.wait_readsNothing (s : State) (t d : Word) : ReadsNothing s (s.wait t d).state := by
  rcases s.wait_cases t d with h | h
  · exact h ▸ .of_later (Env.later_waitFrom _ t d) rfl
  · exact h ▸ .of_later (Env.later_pass _) rfl

theorem State.respond_readsNothing (s : State) (st : Status) (data : Word) :
    ReadsNothing s (s.respond st data).state :=
  s.gap_readsNothing.andThen fun _ => .of_action rfl rfl rfl

/-- A pulse's two actions are observed as pin events (41_pulse.md R135). -/
theorem State.moveStep_readsNothing (s : State) (dur : Word) : ReadsNothing s (s.moveStep dur).state := by
  refine s.gap_readsNothing.andThen fun u => ReadsNothing.andThen ?_ fun v => ?_
  · exact (ReadsNothing.of_action (State.pulseHigh_obs u dur) rfl rfl).trans (State.wait_readsNothing ..)
  · exact (ReadsNothing.of_action (State.pulseLow_obs v dur) rfl rfl).trans (State.wait_readsNothing ..)

theorem State.pulses_readsNothing (s : State) (dur : Word) (n : Nat) :
    ReadsNothing s (State.pulses dur n s).state := by
  induction n generalizing s with
  | zero => exact .of_later (Env.Later.refl _) rfl
  | succ n ih => exact (s.moveStep_readsNothing dur).andThen fun u => (ih _).after_write rfl rfl

/-! ### The commands that do not drain (40_rxfifo.md R111) -/

theorem ReadsNothing.of_outcome {p : Progress} {s t : State} (h : p.outcome = .next t)
    (hp : ReadsNothing s p.state) : ReadsNothing s t :=
  Progress.outcome_eq_next.mp h ▸ hp

/-- Whether reset strikes or not, a command that does not drain reads nothing. -/
theorem exec_readsNothing {i : Instr} {s t : State} (hi : i ≠ .hasNext ∨ s.rdc ≠ s.flc)
    (hx : exec i s = .next t) : ReadsNothing s t := by
  cases i with
  | reserved0 | reservedA | reservedB | reservedC | reservedD | reservedE | reservedF | getEn =>
    exact .of_outcome hx (State.respond_readsNothing ..)
  | setEn b =>
    refine .of_outcome hx (s.gap_readsNothing.andThen fun u => ?_)
    exact (ReadsNothing.of_action (State.writePinEn_obs u (enableLevel b)) rfl rfl).trans
      ((State.respond_readsNothing ..).after_write rfl rfl)
  | setDir d =>
    refine .of_outcome hx (s.gap_readsNothing.andThen fun u => ?_)
    exact (ReadsNothing.of_action (State.writePinDir_obs u (directionLevel d)) rfl rfl).trans
      (State.respond_readsNothing ..)
  | setTgt p =>
    refine .of_outcome hx ?_
    split
    · exact State.respond_readsNothing ..
    · exact s.gap_readsNothing.andThen fun u =>
        (State.respond_readsNothing ..).after_write rfl rfl
  | move n =>
    refine .of_outcome hx (s.gap_readsNothing.andThen fun u => ?_)
    dsimp only
    split
    · refine ReadsNothing.andThen ?_ fun v => State.respond_readsNothing v ..
      exact (State.pulses_readsNothing ..).after_write rfl rfl
    · exact (State.respond_readsNothing ..).after_write rfl rfl
  | step u =>
    exact .of_outcome hx ((s.moveStep_readsNothing _).andThen fun v => State.respond_readsNothing v ..)
  | rdReg idx =>
    refine .of_outcome hx ?_
    split
    · exact State.respond_readsNothing ..
    · exact State.respond_readsNothing ..
  | hasNext =>
    have hne : s.rdc ≠ s.flc := hi.resolve_left fun h => h rfl
    rw [exec, execHasNext, if_neg hne] at hx
    exact .of_outcome hx (State.respond_readsNothing ..)
  | getNext =>
    simp only [exec, execGetNext] at hx
    split at hx
    · exact .of_outcome hx (State.respond_readsNothing ..)
    · split at hx
      · exact .of_outcome hx (s.gap_readsNothing.andThen fun u =>
          (State.respond_readsNothing ..).after_write rfl rfl)
      · cases hx

/-- Settles O47: every part of a command but the drain reads nothing, and no other command drains. -/
theorem onlyADrainReadsTheTransport : Obligations.OnlyADrainReadsTheTransport :=
  fun _ _ _ _ hi hx => exec_readsNothing hi hx

end Sys2Proof.Machine
end

section
/-! SUPPORT. Decoder and encoder are inverse to each other (30_encoding.md R80 to R85): on well-formed commands one way,
and on words, up to the bits that their format ignores, the other way. -/

namespace Sys2Proof

/-! ### The two fields of a word (R80) -/

theorem opField_append_argField (w : CmdWord) : opField w ++ argField w = w :=
  (BitVec.extractLsb'_append_extractLsb'_eq_extractLsb' (by decide : 32 = 0 + 32)).trans BitVec.extractLsb'_eq_self

@[simp] theorem decode_append (op : BitVec 4) (arg : Word) : decode (op ++ arg) = decodeFields op.toFin arg := by
  rw [decode, opField_append, argField_append]

/-! ### What each operand format reads and writes (R81, R82) -/

@[simp] theorem operandB_zeroExtend (b : Bool) : operandB ((BitVec.ofBool b).zeroExtend 32) = b := by
  cases b <;> rfl

theorem zeroExtend_operandB (arg : Word) : (BitVec.ofBool (operandB arg)).zeroExtend 32 = arg &&& 0x00000001#32 :=
  BitVec.and_one_eq_setWidth_ofBool_getLsbD.symm

@[simp] theorem directionOf_bit (d : Direction) : directionOf d.bit = d := by
  cases d <;> rfl

@[simp] theorem bit_directionOf (b : Bool) : (directionOf b).bit = b := by
  cases b <;> rfl

theorem operandU_ofNat {u : Nat} (h : fitsU u = true) : operandU (BitVec.ofNat 32 u) = u :=
  Nat.mod_eq_of_lt (of_decide_eq_true h)

theorem ofNat_operandU (arg : Word) : BitVec.ofNat 32 (operandU arg) = arg &&& 0xFFFFFFFF#32 :=
  (BitVec.ofNat_toNat 32 arg).trans BitVec.and_allOnes.symm

theorem fitsU_operandU (arg : Word) : fitsU (operandU arg) = true := decide_eq_true arg.isLt

theorem operandR_zeroExtend {idx : Nat} (h : fitsR idx = true) :
    operandR ((BitVec.ofNat 4 idx).zeroExtend 32) = idx := by
  have hlt : idx < 16 := of_decide_eq_true h
  simp [operandR]
  omega

theorem zeroExtend_operandR (arg : Word) :
    (BitVec.ofNat 4 (operandR arg)).zeroExtend 32 = arg &&& 0x0000000F#32 := by
  have hmask : arg.toNat &&& 15 = arg.toNat % 16 := Nat.and_two_pow_sub_one_eq_mod arg.toNat 4
  apply BitVec.eq_of_toNat_eq
  simp [operandR, hmask]
  omega

theorem fitsR_operandR (arg : Word) : fitsR (operandR arg) = true :=
  decide_eq_true (arg.extractLsb' 0 4).isLt

/-! ### Decoding an encoding -/

theorem decode_encode (i : Instr) (h : i.wf = true) : decode (encode i) = i := by
  rw [encode, decode_append]
  cases i with
  | reserved0 | getEn | hasNext | getNext | reservedA | reservedB | reservedC | reservedD | reservedE | reservedF
  | setTgt _ => rfl
  | setEn b => exact congrArg Instr.setEn (operandB_zeroExtend b)
  | setDir d =>
    have hbit : operandB ((BitVec.ofBool d.bit).zeroExtend 32) = d.bit := operandB_zeroExtend d.bit
    exact congrArg Instr.setDir ((congrArg directionOf hbit).trans (directionOf_bit d))
  | move n => exact congrArg Instr.move (operandU_ofNat h)
  | step u => exact congrArg Instr.step (operandU_ofNat h)
  | rdReg idx => exact congrArg Instr.rdReg (operandR_zeroExtend h)

/-- Settles O2: each format reads back the operand that it wrote. -/
theorem decodeOfEncodeIsIdentity : Obligations.DecodeOfEncodeIsIdentity := decode_encode

/-! ### Encoding a decoded word (R85) -/

theorem opcode_decodeFields (op : Fin 16) (arg : Word) : (decodeFields op arg).opcode = .ofFin op := by
  fun_cases decodeFields op arg <;> rfl

/-- The operand of a decoded command holds the bits that its format reads, the others zero. -/
theorem operand_decodeFields (op : Fin 16) (arg : Word) :
    (decodeFields op arg).operand = arg &&& argMask (.ofFin op) := by
  match op with
  | 0x1 => exact zeroExtend_operandB arg
  | 0x3 =>
    refine (congrArg (fun b => (BitVec.ofBool b).zeroExtend 32) ?_).trans (zeroExtend_operandB arg)
    exact bit_directionOf (operandB arg)
  | 0x4 => exact BitVec.and_allOnes.symm
  | 0x5 | 0x6 => exact ofNat_operandU arg
  | 0x7 => exact zeroExtend_operandR arg
  | 0x0 | 0x2 | 0x8 | 0x9 | 0xA | 0xB | 0xC | 0xD | 0xE | 0xF => exact BitVec.and_zero.symm
  | ⟨_ + 16, h⟩ => exact absurd h (by omega)

theorem encode_decode (w : CmdWord) : encode (decode w) = usedBits w := by
  rw [encode, decode, opcode_decodeFields, operand_decodeFields]
  rfl

theorem decode_wf (w : CmdWord) : (decode w).wf = true := by
  unfold decode
  match (opField w).toFin with
  | 0x5 | 0x6 => exact fitsU_operandU (argField w)
  | 0x7 => exact fitsR_operandR (argField w)
  | 0x0 | 0x1 | 0x2 | 0x3 | 0x4 | 0x8 | 0x9 | 0xA | 0xB | 0xC | 0xD | 0xE | 0xF => rfl
  | ⟨_ + 16, h⟩ => exact absurd h (by omega)

/-- Clearing the ignored bits of a word does not change what it decodes to. -/
theorem decode_usedBits (w : CmdWord) : decode (usedBits w) = decode w := by
  rw [← encode_decode, decode_encode _ (decode_wf w)]

/-- Settles O3: the encoding of what a word decodes to is its used bits, and those decode as the word does. -/
theorem ignoredOperandBitsAreNotDecoded : Obligations.IgnoredOperandBitsAreNotDecoded := by
  refine ⟨fun w w' => ⟨fun h => ?_, fun h => ?_⟩, decode_wf⟩
  · rw [← encode_decode w, ← encode_decode w', h]
  · rw [← decode_usedBits w, ← decode_usedBits w', h]

/-! ### The opcode table (R83, R84) -/

theorem append_and_opcodeMask (op : BitVec 4) (arg : Word) : (op ++ arg) &&& 0xF00000000#36 = op ++ 0#32 :=
  calc (op ++ arg) &&& (BitVec.allOnes 4 ++ 0#32)
    _ = (op &&& BitVec.allOnes 4) ++ (arg &&& 0#32) := BitVec.and_append
    _ = op ++ 0#32 := by rw [BitVec.and_allOnes, BitVec.and_zero]

/-- Every row masks the opcode, so a word selects the rows that have its opcode and no operand bits. -/
theorem rowsOf_append (op : BitVec 4) (arg : Word) :
    rowsOf (op ++ arg) = opcodeRows.filter fun r => op ++ 0#32 == r.pattern := by
  have hmask : ∀ r ∈ opcodeRows, r.mask = 0xF00000000#36 := by decide
  refine List.filter_congr fun r hr => ?_
  rw [hmask r hr, append_and_opcodeMask]

theorem mnemonic_decodeFields (op : Fin 16) (arg : Word) :
    (decodeFields op arg).mnemonic = (decodeFields op 0#32).mnemonic := by
  fun_cases decodeFields op arg <;> rfl

/-- The opcode table, opcode by opcode. -/
theorem rows_of_opcode : ∀ op : Fin 16,
    (opcodeRows.filter fun r => BitVec.ofFin op ++ 0#32 == r.pattern).map (·.mnemonic) =
      [(decodeFields op 0#32).mnemonic] := by
  decide

/-- Settles O4: neither the rows nor the mnemonic depend on the operand, and each opcode has its one row. -/
theorem everyWordSelectsOneOpcodeRow : Obligations.EveryWordSelectsOneOpcodeRow := by
  intro w
  rw [← opField_append_argField w, rowsOf_append, decode_append, mnemonic_decodeFields]
  exact rows_of_opcode (opField w).toFin

/-! ### Words of the spec (R83 to R85, V1 to V11) -/

/-- Settles O1: the fifteen words are decoded. -/
theorem specWordsDecode : Obligations.SpecWordsDecode := by
  unfold Obligations.SpecWordsDecode
  decide

end Sys2Proof
end

section
/-! SUPPORT. How the spec writes a program: what a line assembles to, and the pseudo-instructions (30_encoding.md
R97, R98). -/

namespace Sys2Proof.Machine

/-! ### Lines (R97) -/

theorem Line.assemble_of_fits {l : Line} (h : l.fits = true) : l.assemble = some (encode l.command) := if_pos h

theorem Line.assemble_isSome (l : Line) : l.assemble.isSome = l.fits := by
  unfold Line.assemble
  cases l.fits <;> rfl

theorem Line.command_wf {l : Line} (h : l.fits = true) : l.command.wf = true := by
  cases l with
  | setEn _ | getEn | setDir _ | setTgtPattern _ | setTgtDecimal _ _ _ | hasNext | getNext => rfl
  | move _ | step _ => exact h
  | rdReg u => exact decide_eq_true (Nat.mod_lt u (by decide))
  | pseudo p => cases p <;> rfl

theorem Line.fits_iff (l : Line) : l.fits = true ↔ ∀ n, l = .move n ∨ l = .step n ∨ l = .rdReg n → n < 2 ^ 32 := by
  cases l with
  | move _ | step _ | rdReg _ => simp [Line.fits, fitsU]
  | setEn _ | getEn | setDir _ | setTgtPattern _ | setTgtDecimal _ _ _ | hasNext | getNext | pseudo _ =>
    simp [Line.fits]

theorem Line.decode_assemble {l : Line} {w : CmdWord} (h : l.assemble = some w) : decode w = l.command := by
  have hfits : l.fits = true := by rw [← Line.assemble_isSome, h, Option.isSome_some]
  rw [Line.assemble_of_fits hfits] at h
  cases h
  exact decode_encode _ (Line.command_wf hfits)

theorem Line.assemble_move (u : Word) : (Line.move u.toNat).assemble = some (0x5#4 ++ u) := by
  have hfits : (Line.move u.toNat).fits = true := fitsU_operandU u
  rw [Line.assemble_of_fits hfits]
  exact congrArg (fun arg => some (0x5#4 ++ arg)) (BitVec.ofNat_toNat 32 u)

theorem Line.assemble_step (u : Word) : (Line.step u.toNat).assemble = some (0x6#4 ++ u) := by
  have hfits : (Line.step u.toNat).fits = true := fitsU_operandU u
  rw [Line.assemble_of_fits hfits]
  exact congrArg (fun arg => some (0x6#4 ++ arg)) (BitVec.ofNat_toNat 32 u)

/-- The low four bits of an integer are the ones that format `R` reads of it. -/
theorem operandR_eq_mod (u : Word) : operandR u = u.toNat % 16 := by
  simp [operandR]

theorem Line.assemble_rdReg (u : Word) : (Line.rdReg u.toNat).assemble = some (0x7#4 ++ (u &&& 0xF#32)) := by
  have hfits : (Line.rdReg u.toNat).fits = true := fitsU_operandU u
  rw [Line.assemble_of_fits hfits, ← zeroExtend_operandR, operandR_eq_mod]
  rfl

/-- Settles O7: a line that assembles is the encoding of a well-formed command, and its word is that of the format of
its operand. -/
theorem assembledLineDecodesToItsCommand : Obligations.AssembledLineDecodesToItsCommand := by
  refine ⟨fun _ _ => Line.decode_assemble, fun l => ?_, by decide, fun _ => rfl, fun u => ?_, rfl,
    fun _ _ => ⟨rfl, rfl⟩, by decide, by decide, fun _ => rfl⟩
  · rw [Line.assemble_isSome, Line.fits_iff]
  · exact ⟨Line.assemble_move u, Line.assemble_step u, Line.assemble_rdReg u⟩

/-! ### Pseudo-instructions (R98) -/

/-- A response with no reset planned. -/
theorem State.respond_outcome_of_quiet {s : State} (st : Status) (data : Word) (h : s.env.quiet = true) :
    (s.respond st data).outcome = .next ((s.withEnv s.env.pass).answer ⟨st, data⟩) := by
  rw [State.respond_quiet st data h, Progress.outcome_running]

/-- After its ramp tick `MOVE 0` answers `OK, 0` and does nothing else: below the threshold no pulse is asked for, and
above it the step loop counts down from 0 (R156). -/
theorem outcome_of_no_pulses {s : State} (h : s.env.quiet = true) : ∃ w : Work,
    (if aboveThreshold s.cur then
      (State.pulses (stepDuration s.cur s.params.spr) 0
        { s with work := { s.work with nleft := wordOfU 0 } }).andThen fun s => s.respond .ok (wordOfU 0)
    else s.respond .ok 0#32).outcome = .next { s with
      work := w, env := s.env.pass, phase := .idle
      rsp := some ⟨.ok, 0#32⟩, obs := s.obs ++ [.response ⟨.ok, 0#32⟩] } := by
  split
  · exact ⟨{ s.work with nleft := wordOfU 0 }, State.respond_outcome_of_quiet _ _ h⟩
  · exact ⟨s.work, State.respond_outcome_of_quiet _ _ h⟩

theorem exec_move_zero {s : State} (h : s.env.quiet = true) : ∃ w : Work,
    exec (.move 0) s = .next { s with
      cur := rampTick s.cur s.tgt, work := w, env := s.env.pass.pass, phase := .idle
      rsp := some ⟨.ok, 0#32⟩, obs := s.obs ++ [.response ⟨.ok, 0#32⟩] } := by
  rw [exec, execMove, State.gap_quiet h, Progress.andThen_running]
  dsimp only [State.withEnv]
  generalize rampTick s.cur s.tgt = c
  exact outcome_of_no_pulses (s := { s with cur := c, env := s.env.pass }) (Env.pass_quiet h)

/-- Settles O6: the seven words are encoded, and `RAMP` is `MOVE 0`. -/
theorem pseudoInstructionsExpandToOneWord : Obligations.PseudoInstructionsExpandToOneWord :=
  ⟨by decide, fun _ hq => exec_move_zero hq⟩

end Sys2Proof.Machine
end

section
/-! SUPPORT. The words at the ports and the steps around a command: the response word, and what a step does with the
word that the host presents or leaves out (30_encoding.md R86 to R88). -/

namespace Sys2Proof.Machine

/-- Settles O5: the response word is the status code above the data. -/
theorem responseWordHoldsStatusAndData : Obligations.ResponseWordHoldsStatusAndData := by
  refine ⟨rfl, rfl, rfl, fun r => ⟨?_, ?_, ?_⟩⟩
  · exact BitVec.extractLsb'_append_eq_left
  · exact BitVec.extractLsb'_append_eq_right
  · cases r.status <;> decide

/-! ### Steps (R86, R227) -/

theorem State.beforePort_cmdReady_of_idle {s : State} (h : s.phase = .idle) : s.beforePort.cmdReady = true := by
  simp [State.cmdReady, h]

theorem State.beforePort_cmdReady_of_exec {s : State} (h : s.phase = .exec) : s.beforePort.cmdReady = false := by
  simp [State.cmdReady, h]

@[simp] theorem State.beforePort_cmdPort (s : State) : s.beforePort.cmdPort = s.cmdPort := rfl

/-- A busy sequencer does not look at the port. -/
theorem step_of_busy {s : State} (hs : s.env.struck = false) (hr : s.beforePort.cmdReady = false) :
    step s = .next s.beforePort := by
  simp [step, State.offer, hs, hr]

/-- An idle sequencer that finds no word lets the host's step without one pass. -/
theorem step_of_no_word {s : State} (hs : s.env.struck = false) (hr : s.beforePort.cmdReady = true)
    (hn : s.cmdPort = none) : step s = .next s.beforePort.unoffered := by
  simp [step, State.offer, hs, hr, hn]

/-- Settles O8: the port shows the head of the host's list, and acceptance latches it and takes it off. -/
theorem stepRunsThePresentedCommand : Obligations.StepRunsThePresentedCommand := by
  intro s w hs hidle hw
  have hport : s.beforePort.cmdPort = some w := congrArg Option.join hw
  exact step_of_cmdPort hs (State.beforePort_cmdReady_of_idle hidle) hport

/-- At the end of the host's list there is no step without a word to be over. -/
theorem Env.popCmd_of_nil {e : Env} (h : e.cmds = []) : e.popCmd = e := by
  obtain ⟨tq, time, cmds, script, draw⟩ := e
  cases h
  rfl

theorem State.unoffered_of_nil {s : State} (h : s.env.cmds = []) : s.unoffered = s :=
  congrArg s.withEnv (Env.popCmd_of_nil h)

/-- Settles O10: in `EXEC` the port is not looked at, and in `IDLE` there is no word on it. -/
theorem busyOrUnofferedStepOnlyLetsTimePass : Obligations.BusyOrUnofferedStepOnlyLetsTimePass := by
  refine ⟨fun s hs h => ?_, fun s hs hidle hn => ?_⟩
  · cases hp : s.phase with
    | exec => exact hp ▸ step_of_busy hs (State.beforePort_cmdReady_of_exec hp)
    | idle =>
      have hnil : s.env.cmds = [] := h.resolve_left (by simp [hp])
      have hport : s.cmdPort = none := by simp [State.cmdPort, hnil]
      have hover : s.beforePort.unoffered = s.beforePort := State.unoffered_of_nil hnil
      rw [step_of_no_word hs (State.beforePort_cmdReady_of_idle hp) hport, hover, ← hp]
      rfl
  · have hport : s.cmdPort = none := congrArg Option.join hn
    exact step_of_no_word hs (State.beforePort_cmdReady_of_idle hidle) hport

end Sys2Proof.Machine
end

section
/-! SUPPORT. Every command ends with its one response, or in the reset state without one (30_encoding.md R86;
60_exceptions.md R190; 70_reset_and_hazards.md R212, R226). -/

namespace Sys2Proof.Machine

/-! ### How a command can end -/

/-- A command that began in `s` has ended in `t`: with one response after all else, or cut by reset with none. -/
def Ended (s t : State) : Prop :=
  (∃ u r, Unanswered s u ∧ t = u.answer r) ∨ (t.blockReset = t ∧ Unanswered s t)

/-- What comes before gives no response. -/
theorem Ended.after {s u t : State} (ht : Ended u t) (h : Unanswered s u) : Ended s t := by
  rcases ht with ⟨v, r, hv, rfl⟩ | ⟨hreset, hu⟩
  · exact .inl ⟨v, r, h.trans hv, rfl⟩
  · exact .inr ⟨hreset, h.trans hu⟩

/-- A part of a command that gives no response, whether it runs on or is cut. -/
structure Progress.Silent (p : Progress) (s : State) : Prop where
  runs : ∀ {t}, p = .running t → Unanswered s t
  cut : ∀ {t}, p = .abandoned t → CutFrom s t

theorem Progress.Silent.andThen {p : Progress} {s : State} {f : State → Progress} (hp : p.Silent s)
    (hf : ∀ u, Ended u (f u).state) : Ended s (p.andThen f).state := by
  cases p with
  | running u => exact (hf u).after (hp.runs rfl)
  | abandoned t => exact .inr ⟨(hp.cut rfl).reset, (hp.cut rfl).trace⟩

/-! ### The parts of a command -/

/-- A write of the block's own elements. -/
theorem Unanswered.of_write {s t : State} (he : t.env = s.env) (ho : t.obs = s.obs) : Unanswered s t :=
  .of_env (k := 0) (by rw [he]; exact Env.After.refl _) ho

/-- A write of a pin, observed as one event. -/
theorem Unanswered.of_pin {s t : State} {p : Pin} {l : Bool} {w : Word} (he : t.env = s.env)
    (ho : t.obs = s.obs ++ [.pin p l w]) : Unanswered s t :=
  ⟨0, _, ho, rfl, by rw [he]; exact Env.After.refl _⟩

theorem State.gap_silent (s : State) : s.gap.Silent s where
  runs h := State.gap_running h ▸ .of_env (Env.after_pass _) rfl
  cut h := State.gap_abandoned h

theorem State.moveStep_silent (s : State) (dur : Word) : (s.moveStep dur).Silent s where
  runs h := by
    obtain ⟨gap, e1, e2, e, rfl, -, -, -, he⟩ := State.moveStep_running h
    exact ⟨3, _, rfl, responses_pulseTrain _, by rwa [rxBytes_pulseTrain]⟩
  cut h := State.moveStep_abandoned h

theorem State.pulses_silent (s : State) (dur : Word) (n : Nat) : (State.pulses dur n s).Silent s where
  runs h := by
    obtain ⟨ps, w, e, rfl, -, -, -, -, -, he⟩ := State.pulses_running h
    exact ⟨3 * n, _, rfl, responses_pulseTrain ps, by rwa [rxBytes_pulseTrain]⟩
  cut h := State.pulses_abandoned h

theorem State.drain_silent (s : State) : s.drain.Silent s where
  runs h := by
    obtain ⟨taken, m, w, e, k, rfl, he, -⟩ := State.drainLoop_running h
    exact ⟨k, _, rfl, responses_rxRead taken, by rwa [rxBytes_rxRead]⟩
  cut h := State.drainLoop_abandoned h

/-- The response is the last action of a command. -/
theorem State.respond_ended (s : State) (st : Status) (data : Word) : Ended s (s.respond st data).state :=
  s.gap_silent.andThen fun u => .inl ⟨u, _, .of_write rfl rfl, rfl⟩

/-! ### The commands -/

theorem Ended.of_outcome {p : Progress} {s t : State} (h : p.outcome = .next t) (hp : Ended s p.state) : Ended s t :=
  Progress.outcome_eq_next.mp h ▸ hp

/-- Every command ends with its one response, or in the reset state without one. -/
theorem exec_ended {i : Instr} {s t : State} (h : exec i s = .next t) : Ended s t := by
  cases i with
  | reserved0 | reservedA | reservedB | reservedC | reservedD | reservedE | reservedF | getEn =>
    exact .of_outcome h (State.respond_ended ..)
  | setEn b =>
    refine .of_outcome h (s.gap_silent.andThen fun u => ?_)
    exact (State.respond_ended ..).after (.of_pin rfl (State.writePinEn_obs u (enableLevel b)))
  | setDir d =>
    refine .of_outcome h (s.gap_silent.andThen fun u => ?_)
    exact (State.respond_ended ..).after (.of_pin rfl (State.writePinDir_obs u (directionLevel d)))
  | setTgt p =>
    refine .of_outcome h ?_
    split
    · exact State.respond_ended ..
    · exact s.gap_silent.andThen fun u => (State.respond_ended ..).after (.of_write rfl rfl)
  | move n =>
    refine .of_outcome h (s.gap_silent.andThen fun u => ?_)
    dsimp only
    split
    · refine Ended.after ((State.pulses_silent ..).andThen fun v => v.respond_ended ..) ?_
      exact .of_write rfl rfl
    · exact (State.respond_ended ..).after (.of_write rfl rfl)
  | step u => exact .of_outcome h ((s.moveStep_silent _).andThen fun v => v.respond_ended ..)
  | rdReg idx =>
    refine .of_outcome h ?_
    split
    · exact State.respond_ended ..
    · exact State.respond_ended ..
  | hasNext =>
    refine .of_outcome h ?_
    split
    · exact s.drain_silent.andThen fun u => u.respond_ended ..
    · exact State.respond_ended ..
  | getNext =>
    simp only [exec, execGetNext] at h
    split at h
    · exact .of_outcome h (State.respond_ended ..)
    · split at h
      · refine .of_outcome h (s.gap_silent.andThen fun u => ?_)
        exact (State.respond_ended ..).after (.of_write rfl rfl)
      · cases h

/-! ### Without a reset (R86, R226) -/

/-- The effect of a command is followed by its response. -/
theorem Effect.answered {i : Instr} {s t : State} (he : Effect i s t) : ∃ u, Answered u t := by
  cases i with
  | reserved0 | reservedA | reservedB | reservedC | reservedD | reservedE | reservedF | getEn | rdReg _ | setEn _
  | setDir _ | setTgt _ | getNext => exact ⟨_, he⟩
  | move _ =>
    obtain ⟨d, l, w, ha⟩ := he
    exact ⟨_, ha⟩
  | step _ =>
    obtain ⟨w, ha⟩ := he
    exact ⟨_, ha⟩
  | hasNext =>
    obtain ⟨u, -, ha⟩ := he
    exact ⟨u, ha⟩

/-- With no reset planned no command ends in the reset state: there is a response on the port. -/
theorem exec_not_reset {i : Instr} {s t : State} (hq : s.env.quiet = true) (h : exec i s = .next t) :
    t.blockReset ≠ t := by
  intro hreset
  obtain ⟨u, r, e, os, rfl⟩ := ((exec_cases h).resolve_right fun hcut => hcut.2 hq).answered
  cases congrArg State.rsp hreset

/-- Where the cursor rule holds the read cursor is in the buffer while bytes are pending, so every command runs. -/
theorem State.BufferRule.exec_runs {s : State} (hb : s.BufferRule) (i : Instr) : ∃ t, exec i s = .next t := by
  refine (exec_runs_or_outside i s).resolve_right ?_
  rintro ⟨-, hne, hout⟩
  have hlt : s.rdc.toNat < s.flc.toNat := lt_of_le_of_ne hb.ordered (hne ∘ BitVec.eq_of_toNat_eq)
  have hle : s.flc.toNat ≤ 32 := hb.bounded
  omega

/-- Settles O50: the command runs, it ends, and without a reset it can only end answered. -/
theorem everyCommandAnswersExactlyOnce : Obligations.EveryCommandAnswersExactlyOnce := by
  intro i s hq hb
  obtain ⟨t, ht⟩ := hb.exec_runs i
  rcases exec_ended ht with ⟨u, r, ⟨k, os, ho, hr, -⟩, rfl⟩ | ⟨hreset, -⟩
  · exact ⟨_, r, os, ht, rfl, rfl, congrArg (· ++ [Obs.response r]) ho, hr⟩
  · exact absurd hreset (exec_not_reset hq ht)

end Sys2Proof.Machine
end

section
/-! SUPPORT. The Line Receive Buffer: what `HASNEXT` and `GETNEXT` answer and leave, how one pass of the drain goes,
and the stream of bytes that runs from the transport through the buffer (40_rxfifo.md R111 to R116; 20_memory.md R62,
R67). -/

namespace Sys2Proof.Machine

/-! ### The two commands without a drain (R111, R112) -/

/-- The opcode alone selects the row of the opcode map (30_encoding.md R83). -/
theorem decode_of_opField {w : CmdWord} {op : BitVec 4} (h : opField w = op) :
    decode w = decodeFields op.toFin (argField w) := by
  rw [decode, h]

theorem pendingDatum_of_ne {rdc flc : Cursor} (h : rdc ≠ flc) : pendingDatum rdc flc = 1#32 := if_neg h

/-- Settles O40: `HASNEXT` on unequal cursors is its response alone. -/
theorem hasNextWithBytesPending : Obligations.HasNextWithBytesPending := by
  refine ⟨fun w hw => decode_of_opField hw, fun s hq hne => ?_⟩
  rw [exec, execHasNext, if_neg hne, pendingDatum_of_ne hne]
  exact State.respond_outcome_of_quiet _ _ hq

theorem State.bufRead_of_read {s : State} {i : Nat} {b : Byte} (h : s.rxbuf.read i = some b) : s.bufRead i = b := by
  rw [State.bufRead, h]

theorem exec_getNext_of_empty {s : State} (hq : s.env.quiet = true) (he : s.rdc = s.flc) :
    exec .getNext s = .next ((s.withEnv s.env.pass).answer ⟨.ok, 0#32⟩) := by
  rw [exec, execGetNext, if_pos he]
  exact State.respond_outcome_of_quiet _ _ hq

/-- With bytes pending and the read cursor inside the buffer `GETNEXT` moves the cursors and answers the cell. -/
theorem exec_getNext_of_pending {s : State} (hq : s.env.quiet = true) (hne : s.rdc ≠ s.flc)
    (hin : s.rdc.toNat < Config.cap) :
    exec .getNext s = .next ((s.removeRx.withEnv s.env.pass.pass).answer
      ⟨.ok, ((s.withEnv s.env.pass).bufRead s.rdc.toNat).zeroExtend 32⟩) := by
  rw [exec, execGetNext, if_neg hne, if_pos hin, State.gap_quiet hq, Progress.andThen_running]
  exact State.respond_outcome_of_quiet _ _ (Env.pass_quiet hq)

/-- Settles O43: on equal cursors the sentinel, else the cell at the read cursor. -/
theorem getNextRemovesTheOldestByte : Obligations.GetNextRemovesTheOldestByte := by
  refine ⟨fun w hw => decode_of_opField hw, fun s hq => ⟨exec_getNext_of_empty hq, fun hne hin => ?_⟩⟩
  exact ⟨(s.withEnv s.env.pass).bufRead s.rdc.toNat,
    fun b' hb' => State.bufRead_of_read (s := s.withEnv s.env.pass) hb', exec_getNext_of_pending hq hne hin⟩

/-! ### The drain (R111, R114, R116) -/

/-- With no reset planned the pause samples `T0` and waits from it. -/
theorem State.pause_of_quiet {s : State} (hq : s.env.quiet = true) :
    s.pause = .running { s with
      work := { s.work with t0 := s.env.pass.now }
      env := s.env.pass.waitFrom s.env.pass.now s.params.tPace } := by
  rw [State.pause, State.gap_quiet hq, Progress.andThen_running]
  exact State.wait_quiet (s := { s.withEnv s.env.pass with work := _ }) _ _ (Env.pass_quiet hq)

/-- A wait from `now` is over at least its bound later. -/
theorem Env.le_time_waitFrom_now (e : Env) (d : Word) : e.time + d.toNat ≤ (e.waitFrom e.now d).time := by
  rw [Env.time_waitFrom_now]
  exact Nat.add_le_add_left (BitVec.le_def.mp (Env.le_waitSample e e.now d)) _

/-- The environment after a pass of the drain that reads a byte: the sample's move, the read, the move before `T0`, and
the pause. -/
def Env.afterAppend (e : Env) (tPace : Word) : Env :=
  e.pass.popRx.pass.waitFrom e.pass.popRx.pass.now tPace

theorem Env.after_afterAppend {e : Env} {b : Byte} {rest : List Byte} (h : e.pass.tq = b :: rest) (tPace : Word) :
    e.After 3 [b] (e.afterAppend tPace) :=
  (((Env.after_pass e).trans (Env.after_popRx h)).trans (Env.after_pass _)).trans (Env.after_waitFrom _ _ _)

/-- A pass whose sample finds a byte, with room for it. -/
theorem State.drainLoop_append {s : State} {b : Byte} {rest : List Byte} (n : Nat) (hq : s.env.quiet = true)
    (hb : s.env.pass.tq = b :: rest) (hroom : s.flc.toNat < Config.cap) :
    State.drainLoop (n + 1) s = State.drainLoop n { s with
      rxbuf := s.rxbuf.write s.flc.toNat b, flc := s.flc + 1, env := s.env.afterAppend s.params.tPace
      work := { s.work with t0 := s.env.pass.popRx.pass.now }
      obs := s.obs ++ [.rxRead b] } := by
  have hdata : (s.withEnv s.env.pass).rxData = some b := congrArg List.head? hb
  have hpause := State.pause_of_quiet (s := (s.withEnv s.env.pass).appendRx b) (Env.pass_quiet hq)
  rw [State.drainLoop, State.gap_quiet hq, Progress.andThen_running, hdata]
  dsimp only
  rw [State.withEnv_flc, if_pos hroom, hpause]
  rfl

/-- A pass whose sample finds no byte, or no room, is the last. -/
theorem State.drainLoop_stop {s : State} (n : Nat) (hq : s.env.quiet = true)
    (hstop : s.env.pass.tq = [] ∨ Config.cap ≤ s.flc.toNat) :
    State.drainLoop (n + 1) s = .running (s.withEnv s.env.pass) := by
  obtain ⟨t, ht⟩ := State.drainLoop_quiet (n + 1) hq
  rw [ht, State.drainLoop_last ht hstop]

theorem exec_hasNext_of_empty {s : State} (he : s.rdc = s.flc) :
    exec .hasNext s = (s.drain.andThen fun u => u.respond .ok (pendingDatum u.rdc u.flc)).outcome := by
  rw [exec, execHasNext, if_pos he]

/-- Settles O42: a pass appends and pauses, or stops. -/
theorem drainAppendsAByteThenPauses : Obligations.DrainAppendsAByteThenPauses := by
  refine ⟨fun s he => exec_hasNext_of_empty he, fun n s hq => ⟨fun b rest hb hroom => ?_, fun hstop => ?_⟩⟩
  · refine ⟨s.env.pass.popRx.pass.time, s.env.afterAppend s.params.tPace, State.drainLoop_append n hq hb hroom,
      Env.after_afterAppend hb _, ?_, Env.le_time_waitFrom_now _ _⟩
    simp
  · exact State.drainLoop_stop n hq hstop

/-- After a drain of an empty buffer a byte is pending exactly if one was taken; the fill cursor has room to count. -/
theorem pendingDatum_after_drain {flc : Cursor} {taken : List Byte} (hcap : flc.toNat + taken.length ≤ 32) :
    pendingDatum flc (flc + BitVec.ofNat 6 taken.length) = if taken = [] then 0#32 else 1#32 := by
  by_cases ht : taken = []
  · simp [ht, pendingDatum]
  · have hpos : 0 < taken.length := List.length_pos_iff.mpr ht
    rw [if_neg ht]
    refine pendingDatum_of_ne fun h => ?_
    have hn := congrArg BitVec.toNat h
    rw [BitVec.toNat_add, BitVec.toNat_ofNat] at hn
    omega

/-- Settles O41: the drain runs to a sample that finds the transport empty or the buffer full, and the response is one
move later. -/
theorem hasNextDrainsAnEmptyBuffer : Obligations.HasNextDrainsAnEmptyBuffer := by
  intro s hq he hb
  obtain ⟨t, ht⟩ := State.drainLoop_quiet (Config.cap + 1) hq
  obtain ⟨taken, m, w, e, k, rfl, hafter, htime, -, -, hle, hseen, hnew, hold, -, hend⟩ := State.drainLoop_running ht
  obtain ⟨rfl, hstop⟩ := hend (Nat.succ_pos _) (by omega)
  have hcap : s.flc.toNat + taken.length ≤ 32 := by
    by_cases hnil : taken = []
    · simpa [hnil] using hb
    · exact hle hnil
  have hstop : e.tq = [] ∨ s.flc.toNat + taken.length = 32 := hstop.imp_right (le_antisymm hcap)
  refine ⟨taken, e.tq, m, w, e.pass, ?_, by simpa using hafter.trans (Env.after_pass e), hafter.tq, hseen, hcap,
    hstop, hnew, hold, htime.trans (Env.after_pass e).time⟩
  rw [exec_hasNext_of_empty he, State.drain, ht, Progress.andThen_running,
    State.respond_outcome_of_quiet _ _ (hafter.quiet hq)]
  dsimp only
  rw [he, pendingDatum_after_drain hcap]
  rfl

/-! ### Pending bytes (10_state.md R30, R31) -/

theorem State.pending_length (s : State) : s.pending.length = s.flc.toNat - s.rdc.toNat := by
  simp [State.pending]

/-- The cells between the cursors are written and the pending bytes are what they hold. -/
theorem State.BufferRule.read_pending {s : State} (hb : s.BufferRule) {j : Nat} (hj : j < s.pending.length) :
    s.rxbuf.read (s.rdc.toNat + j) = some s.pending[j] := by
  have hlen := s.pending_length
  obtain ⟨b, hread⟩ := Option.isSome_iff_exists.mp (hb.written (s.rdc.toNat + j) (by omega) (by omega))
  rw [hread, ← State.bufRead_of_read hread]
  simp [State.pending]

/-- Bytes that stand in the cells from the read cursor up to the fill cursor are the pending ones. -/
theorem State.pending_eq {s : State} {bs : List Byte} (hlen : s.flc.toNat = s.rdc.toNat + bs.length)
    (hread : ∀ j, (hj : j < bs.length) → s.rxbuf.read (s.rdc.toNat + j) = some bs[j]) : s.pending = bs := by
  have hl : s.pending.length = bs.length := by rw [s.pending_length]; omega
  refine List.ext_getElem hl fun j hj hj' => ?_
  rw [← State.bufRead_of_read (hread j hj')]
  simp [State.pending]

/-- The fill cursor stands as many cells above the read cursor as bytes are pending. -/
theorem State.BufferRule.flc_eq {s : State} (hb : s.BufferRule) :
    s.flc.toNat = s.rdc.toNat + s.pending.length := by
  rw [s.pending_length, Nat.add_sub_cancel' hb.ordered]

theorem State.BufferRule.pending_congr {s t : State} (hb : s.BufferRule) (hr : t.rdc = s.rdc) (hf : t.flc = s.flc)
    (hm : t.rxbuf = s.rxbuf) : t.pending = s.pending :=
  State.pending_eq (by rw [hr, hf, hb.flc_eq]) fun j hj => by rw [hr, hm, hb.read_pending hj]

theorem Answered.pending_eq {s t : State} (ha : Answered s t) (hb : s.BufferRule) : t.pending = s.pending := by
  obtain ⟨r, e, os, rfl⟩ := ha
  exact hb.pending_congr rfl rfl rfl

theorem State.pending_of_empty {s : State} (he : s.rdc = s.flc) : s.pending = [] := by
  simp [State.pending, he]

/-- The removal of the head of the pending bytes leaves the others, in order. -/
theorem State.BufferRule.pending_removeRx {s : State} {b : Byte} {bs : List Byte} (hb : s.BufferRule)
    (hp : s.pending = b :: bs) : s.removeRx.pending = bs := by
  have hflc := hb.flc_eq
  rw [hp, List.length_cons] at hflc
  have hsucc : (s.rdc + 1).toNat = s.rdc.toNat + 1 := Cursor.toNat_succ (by have := hb.bounded; omega)
  by_cases hlast : s.rdc + 1 = s.flc
  · have hnil : bs = [] := List.eq_nil_of_length_eq_zero (by rw [hlast] at hsucc; omega)
    rw [hnil]
    exact State.pending_of_empty (by rw [State.removeRx_rdc, State.removeRx_flc, if_pos hlast, if_pos hlast])
  · have hr : s.removeRx.rdc = s.rdc + 1 := if_neg hlast
    have hf : s.removeRx.flc = s.flc := if_neg hlast
    refine State.pending_eq (by rw [hr, hf]; omega) fun j hj => ?_
    have hread := hb.read_pending (j := j + 1) (by simpa [hp] using hj)
    rw [hr, hsucc, Nat.add_assoc, Nat.add_comm 1, State.removeRx_rxbuf, hread]
    simp [hp]

/-! ### The stream of bytes (R115; 20_memory.md R62, R67) -/

/-- From `s` to `t` the block has given out the bytes `out`: what it held and what it took from the transport is what
it gave out and what it holds, in this order. -/
def BytesPass (out : List Byte) (s t : State) : Prop :=
  ∃ k taken, s.env.After k taken t.env ∧ out ++ t.pending = s.pending ++ taken

/-- A command that reads nothing from the transport and leaves cells and cursors alone. -/
theorem BytesPass.of_later {s t : State} (hb : s.BufferRule) (he : s.env.Later t.env) (hr : t.rdc = s.rdc)
    (hf : t.flc = s.flc) (hm : t.rxbuf = s.rxbuf) : BytesPass [] s t := by
  obtain ⟨k, he⟩ := he
  exact ⟨k, [], he, by simp [hb.pending_congr hr hf hm]⟩

/-- A drain of an empty buffer: the bytes taken are then the pending ones. -/
theorem exec_hasNext_bytesPass {s t : State} (hq : s.env.quiet = true) (hb : s.BufferRule) (he : s.rdc = s.flc)
    (hx : exec .hasNext s = .next t) : BytesPass [] s t := by
  obtain ⟨taken, left, m, w, e, hx', hafter, -, -, hcap, -, hnew, -⟩ := hasNextDrainsAnEmptyBuffer s hq he hb.bounded
  cases hx.symm.trans hx'
  refine ⟨_, taken, hafter, ?_⟩
  rw [State.pending_of_empty he, List.nil_append, List.nil_append]
  refine State.pending_eq ?_ (he ▸ hnew)
  rw [he, BitVec.toNat_add, BitVec.toNat_ofNat]
  omega

/-- `GETNEXT` with bytes pending gives out the head. -/
theorem exec_getNext_bytesPass {s t : State} {b : Byte} {bs : List Byte} (hq : s.env.quiet = true)
    (hb : s.BufferRule) (hp : s.pending = b :: bs) (hx : exec .getNext s = .next t) :
    t.rsp = some ⟨.ok, b.zeroExtend 32⟩ ∧ BytesPass [b] s t := by
  have hne : s.rdc ≠ s.flc := fun he => by simp [State.pending_of_empty he] at hp
  have hlt : s.rdc.toNat < s.flc.toNat := lt_of_le_of_ne hb.ordered (hne ∘ BitVec.eq_of_toNat_eq)
  have ht := Host.Outcome.next.inj (hx.symm.trans (exec_getNext_of_pending hq hne (hlt.trans_le hb.bounded)))
  have hhead : (s.withEnv s.env.pass).rxbuf.read s.rdc.toNat = some b := by
    simpa [hp] using hb.read_pending (j := 0) (by simp [hp])
  have hanswered : Answered s.removeRx t := ⟨_, _, _, ht⟩
  have hrest : t.pending = bs := (hanswered.pending_eq (hb.removeRx hne)).trans (hb.pending_removeRx hp)
  refine ⟨by rw [ht, State.answer_rsp, State.bufRead_of_read hhead], 2, [], ?_, ?_⟩
  · rw [ht]
    exact (Env.after_pass _).trans (Env.after_pass _)
  · rw [hp, hrest, List.append_nil, List.singleton_append]

/-- Every command but a `GETNEXT` with bytes pending gives out nothing. -/
theorem exec_bytesPass {i : Instr} {s t : State} (hq : s.env.quiet = true) (hb : s.BufferRule)
    (hi : i ≠ .getNext ∨ s.pending = []) (hx : exec i s = .next t) : BytesPass [] s t := by
  obtain ⟨-, -, -, -, -, -, hcells, hrdc, hflc, -⟩ := eachRegisterHasItsOneWriter i s t hq hx
  by_cases hh : i = .hasNext
  · subst hh
    by_cases he : s.rdc = s.flc
    · exact exec_hasNext_bytesPass hq hb he hx
    · have hlater := (exec_readsNothing (.inr he) hx).2
      cases hx.symm.trans (hasNextWithBytesPending.2 s hq he)
      exact .of_later hb hlater rfl rfl rfl
  · have hlater := (exec_readsNothing (.inl hh) hx).2
    by_cases hg : i = .getNext
    · subst hg
      have he : s.rdc = s.flc := BitVec.eq_of_toNat_eq (by simpa [hi.resolve_left fun h => h rfl] using hb.flc_eq.symm)
      cases hx.symm.trans (exec_getNext_of_empty hq he)
      exact .of_later hb hlater rfl rfl rfl
    · exact .of_later hb hlater (hrdc hg) (hflc hh hg) (hcells hh)

/-- What a command gives out comes off the head of the stream, what arrives meanwhile stands at its tail, and nothing
else about the stream changes. -/
theorem BytesPass.stream {out : List Byte} {s t : State} (h : BytesPass out s t) :
    ∃ k, t.env.draw = s.env.draw + k ∧ t.env.script = s.env.script.drop k ∧
      out ++ (t.pending ++ t.env.tq) = s.pending ++ s.env.tq ++ s.env.arrivals k := by
  obtain ⟨k, taken, hafter, hp⟩ := h
  refine ⟨k, hafter.draw, hafter.script, ?_⟩
  calc out ++ (t.pending ++ t.env.tq)
    _ = s.pending ++ (taken ++ t.env.tq) := by rw [← List.append_assoc, hp, List.append_assoc]
    _ = s.pending ++ s.env.tq ++ s.env.arrivals k := by rw [hafter.tq, List.append_assoc]

/-- Settles O46: a `GETNEXT` with bytes pending gives out the head, and every other command nothing. -/
theorem bytesFlowInOrder : Obligations.BytesFlowInOrder := by
  intro i s t hq hb hx
  by_cases hi : i ≠ .getNext ∨ s.pending = []
  · obtain ⟨k, hdraw, hscript, hstream⟩ := (exec_bytesPass hq hb hi hx).stream
    refine ⟨k, hdraw, hscript, fun _ => hstream, fun b bs hg hp => ?_⟩
    simp [hg, hp] at hi
  · simp only [not_or, not_not] at hi
    obtain ⟨rfl, hpend⟩ := hi
    obtain ⟨b, bs, hp⟩ := List.exists_cons_of_ne_nil hpend
    obtain ⟨hrsp, hpass⟩ := exec_getNext_bytesPass hq hb hp hx
    obtain ⟨k, hdraw, hscript, hstream⟩ := hpass.stream
    refine ⟨k, hdraw, hscript, fun h => absurd (h.resolve_left fun h => h rfl) hpend, fun b' bs' _ hp' => ?_⟩
    cases hp.symm.trans hp'
    refine ⟨hrsp, List.cons_injective (a := b) ?_⟩
    rw [hp] at hstream
    exact hstream

end Sys2Proof.Machine
end

section
/-! SUPPORT. The enable and direction commands, and the time base: what `SETEN`, `GETEN` and `SETDIR` do to the pins
and the flag, when a wait ends, and that time never runs backwards (41_pulse.md R131 to R133, R136;
70_reset_and_hazards.md R227). -/

namespace Sys2Proof.Machine

/-! ### The enable flag and the direction (R131 to R133) -/

/-- Format `B` reads bit 0 of the command word (30_encoding.md R80, R81). -/
theorem operandB_argField (w : CmdWord) : operandB (argField w) = w.getLsbD 0 := by
  simp [operandB, argField]

/-- The enable pin is active-low (00_scope.md R7). -/
theorem enableLevel_eq_not (b : Bool) : enableLevel b = !b := by
  cases b <;> rfl

theorem directionLevel_eq (d : Direction) : directionLevel d = decide (d = .clockwise) := by
  cases d <;> rfl

theorem enableDatum_eq (en : Bool) : enableDatum en = if en then 1#32 else 0#32 := by
  cases en <;> rfl

/-- Settles O16: one gap, the pin and the flag in one action, and the response. -/
theorem setEnDrivesPinAndRecordsFlag : Obligations.SetEnDrivesPinAndRecordsFlag := by
  refine ⟨fun w hw => ?_, fun b s hq => ?_⟩
  · rw [decode_of_opField hw, ← operandB_argField]
    rfl
  · rw [exec, execSetEn, State.gap_quiet hq, Progress.andThen_running,
      State.respond_outcome_of_quiet _ _ (Env.pass_quiet hq), enableLevel_eq_not]
    simp [State.answer, State.withEnv, State.writePinEn]

/-- Settles O17: the response alone, with the flag as its datum. -/
theorem getEnAnswersTheFlag : Obligations.GetEnAnswersTheFlag := by
  refine ⟨fun w hw => decode_of_opField hw, fun s hq => ?_⟩
  rw [exec, execGetEn, State.respond_outcome_of_quiet _ _ hq, enableDatum_eq]
  rfl

/-- Settles O18: one gap, the pin, and the response. -/
theorem setDirDrivesThePin : Obligations.SetDirDrivesThePin := by
  refine ⟨fun w hw => ?_, fun d s hq => ?_⟩
  · rw [decode_of_opField hw, ← operandB_argField]
    rfl
  · rw [exec, execSetDir, State.gap_quiet hq, Progress.andThen_running,
      State.respond_outcome_of_quiet _ _ (Env.pass_quiet hq), directionLevel_eq]
    simp [State.answer, State.withEnv, State.writePinDir]

/-! ### The sample that ends a wait (R136) -/

theorem Env.move_of_script {e : Env} {m : EnvMove} {ms : List EnvMove} (h : e.script = m :: ms) : e.move = m := by
  simp only [Env.move, h]

/-- A wait ends at the sample that is its move's advance above both bounds. -/
theorem Env.waitSample_eq {e : Env} {t d x : Word}
    (h : max d.toNat (e.elapsed t).toNat + e.move.advance = x.toNat) : e.waitSample t d = x := by
  have hx := x.isLt
  apply BitVec.eq_of_toNat_eq
  rw [Env.waitSample_toNat, Nat.mod_eq_of_lt (by omega), h]

/-- The move that ends a wait at the sample `x`: it overshoots both bounds by what `x` is above them. -/
def Env.moveTo (e : Env) (t d x : Word) : EnvMove := ⟨x.toNat - max d.toNat (e.elapsed t).toNat, [], false⟩

theorem Env.waitSample_moveTo {e : Env} {t d x : Word} (hd : d ≤ x) (he : e.elapsed t ≤ x) :
    ({ e with script := e.moveTo t d x :: e.script } : Env).waitSample t d = x := by
  refine Env.waitSample_eq ?_
  rw [Env.move_of_script rfl]
  exact Nat.add_sub_cancel' (max_le hd he)

/-- Settles O20: the sample meets both bounds, and any word that does is the sample of some move. -/
theorem waitEndsAtAnySampleFromItsBound : Obligations.WaitEndsAtAnySampleFromItsBound := by
  intro e t d
  exact ⟨Env.le_waitSample e t d, Env.elapsed_le_waitSample e t d, Env.elapsed_waitFrom e t d,
    fun x hd he => ⟨e.moveTo t d x, Env.waitSample_moveTo hd he⟩⟩

/-! ### Time (R136, R227) -/

theorem Unanswered.time_le {s t : State} (h : Unanswered s t) : s.env.time ≤ t.env.time := by
  obtain ⟨k, os, -, -, he⟩ := h
  exact he.time

theorem Ended.time_le {s t : State} (h : Ended s t) : s.env.time ≤ t.env.time := by
  rcases h with ⟨u, r, hu, rfl⟩ | ⟨-, hu⟩
  · exact hu.time_le
  · exact hu.time_le

/-- Settles O54: every step begins with a move of the environment, and every command ends no earlier than it began. -/
theorem timeNeverRunsBackwards : Obligations.TimeNeverRunsBackwards := by
  intro s t h
  have hport : s.env.time ≤ s.beforePort.env.time := (Env.after_pass s.env).time
  rcases step_cases h with ⟨-, rfl⟩ | ⟨-, -, -, rfl⟩ | ⟨-, -, rfl⟩ | ⟨w, -, -, -, hx⟩
  · exact hport
  · exact hport
  · exact hport
  · exact hport.trans (exec_ended hx).time_le

end Sys2Proof.Machine
end

section
/-! SUPPORT. One step pulse: `STEP` with any environment that plans no reset, the draws of its two waits when the script
gives them, and the pulses of `MOVE` on the ideal time base (41_pulse.md R134 to R138; 42_motion.md R156). -/

namespace Sys2Proof.Machine

/-! ### The bounds of the two waits (R135) -/

theorem half_toNat (dur : Word) : (dur >>> 1).toNat = dur.toNat / 2 := by
  simp [Nat.shiftRight_eq_div_pow]

theorem remaining_toNat (e1 dur : Word) : (remaining e1 dur).toNat = dur.toNat - e1.toNat := by
  unfold remaining
  split
  · rename_i h
    exact (Nat.sub_eq_zero_of_le h).symm
  · rename_i h
    exact BitVec.toNat_sub_of_le (BitVec.le_of_lt (BitVec.not_le.mp h))

theorem wordOfU_toNat {u : Nat} (h : u < 2 ^ 32) : (wordOfU u).toNat = u := Nat.mod_eq_of_lt h

/-! ### `STEP` (R134) -/

theorem State.gap_of_not_struck {s : State} (h : s.env.struck = false) :
    s.gap = .running (s.withEnv s.env.pass) := by
  simp [State.gap, h]

theorem State.respond_of_not_struck {s : State} (h : s.env.struck = false) (st : Status) (data : Word) :
    s.respond st data = .running ((s.withEnv s.env.pass).answer ⟨st, data⟩) := by
  rw [State.respond, State.gap_of_not_struck h, Progress.andThen_running]

/-- `STEP` is its pulse and the response. -/
theorem exec_step_of_moveStep {u : Nat} {s v : State} (hv : s.moveStep (wordOfU u) = .running v)
    (h : v.env.struck = false) :
    exec (.step u) s = .next ((v.withEnv v.env.pass).answer ⟨.ok, 0#32⟩) := by
  rw [exec, execStep, hv, Progress.andThen_running, State.respond_of_not_struck h, Progress.outcome_running]

/-- Settles O19: with no reset planned the pulse runs to its end, and the response follows. -/
theorem stepEmitsOneSelfCorrectingPulse : Obligations.StepEmitsOneSelfCorrectingPulse := by
  refine ⟨fun w hw => decode_of_opField hw, fun u s hu hq => ?_⟩
  obtain ⟨v, hv⟩ := State.moveStep_quiet (wordOfU u) hq
  obtain ⟨gap, e1, e2, e, rfl, he1, he2, htime, hafter⟩ := State.moveStep_running hv
  rw [BitVec.le_def, half_toNat, wordOfU_toNat hu] at he1
  refine ⟨gap, e.move.advance, BitVec.ofNat 32 (s.env.time + gap), e1, remaining e1 (wordOfU u), e2, e.pass, ?_, rfl,
    he1, ?_, he2, ?_, hafter.later.trans (Env.later_pass e)⟩
  · rw [exec_step_of_moveStep hv (Env.struck_of_quiet (hafter.quiet hq))]
    simp [State.answer, State.withEnv, pulseTrain, wordOfU]
  · rw [remaining_toNat, wordOfU_toNat hu]
  · rw [Env.pass_time, htime]

/-! ### A pulse whose draws the script gives (R136, R138) -/

theorem Env.struck_of_script {e : Env} {a : Nat} {b : List Byte} {ms : List EnvMove}
    (h : e.script = ⟨a, b, false⟩ :: ms) : e.struck = false := by
  rw [Env.struck, Env.move_of_script h]

/-- A wait from `now` overshoots its bound by its move's advance. -/
theorem Env.waitSample_of_now {e : Env} {t d x : Word} (ht : e.now = t) (h : d.toNat + e.move.advance = x.toNat) :
    e.waitSample t d = x :=
  Env.waitSample_eq (by simpa [Env.elapsed, ht] using h)

/-- A gap in which the script lets no time pass. -/
theorem State.gap_of_script {s : State} {b : List Byte} {ms : List EnvMove} (hs : s.env.script = ⟨0, b, false⟩ :: ms) :
    ∃ e, s.gap = .running (s.withEnv e) ∧ e.time = s.env.time ∧ e.script = ms := by
  refine ⟨s.env.pass, State.gap_of_not_struck (Env.struck_of_script hs), ?_, ?_⟩
  · rw [Env.pass_time, Env.move_of_script hs]
    rfl
  · rw [Env.pass_script, hs, List.tail_cons]

/-- A wait from `now` that the script ends at the sample `x`. -/
theorem State.wait_of_script {s : State} {t d x : Word} {a : Nat} {b : List Byte} {ms : List EnvMove}
    (hs : s.env.script = ⟨a, b, false⟩ :: ms) (ht : s.env.now = t) (hx : d.toNat + a = x.toNat) :
    ∃ e, s.wait t d = .running (s.withEnv e) ∧ e.now = t + x ∧ e.time = s.env.time + x.toNat ∧ e.script = ms := by
  subst ht
  have hsample : s.env.waitSample s.env.now d = x :=
    Env.waitSample_of_now rfl (by rwa [Env.move_of_script hs])
  refine ⟨s.env.waitFrom s.env.now d, State.wait_of_not_struck (Env.struck_of_script hs) _ _, ?_, ?_, ?_⟩
  · rw [Env.now_waitFrom, hsample]
  · rw [Env.time_waitFrom_now, hsample]
  · rw [Env.waitFrom_script, hs, List.tail_cons]

/-- What `MoveStep(dur)` leaves when no reset strikes in it and its draws are known: the gap takes no time, and the
waits end at `e1` and `e2`. -/
theorem State.moveStep_of_script {s : State} {dur e1 e2 : Word} {x1 x2 : Nat} {b0 b1 b2 : List Byte}
    {ms : List EnvMove} (hs : s.env.script = ⟨0, b0, false⟩ :: ⟨x1, b1, false⟩ :: ⟨x2, b2, false⟩ :: ms)
    (h1 : dur.toNat / 2 + x1 = e1.toNat) (h2 : dur.toNat - e1.toNat + x2 = e2.toNat) :
    ∃ t, s.moveStep dur = .running t ∧ t.obs = s.obs ++ pulseTrain [(s.env.now, e1)] ∧
      t.env.script = ms ∧ t.env.time = s.env.time + e1.toNat + e2.toNat := by
  obtain ⟨e, hgap, htime, hscript⟩ := State.gap_of_script hs
  have hnow : e.now = s.env.now := congrArg (BitVec.ofNat 32) htime
  obtain ⟨e', hwait, hnow', htime', hscript'⟩ :=
    State.wait_of_script (s := (s.withEnv e).pulseHigh dur) (t := e.now) (d := dur >>> 1) (x := e1) hscript rfl
      (by rwa [half_toNat])
  have hfirst : e'.elapsed e.now = e1 := by
    rw [Env.elapsed, hnow']
    simp
  obtain ⟨e'', hwait', -, htime'', hscript''⟩ :=
    State.wait_of_script (s := (((s.withEnv e).pulseHigh dur).withEnv e').pulseLow dur) (d := remaining e1 dur)
      (x := e2) hscript' hnow' (by rwa [remaining_toNat])
  refine ⟨_, Eq.trans ?_ hwait', ?_, hscript'', ?_⟩
  · rw [State.moveStep, hgap, Progress.andThen_running, State.withEnv_env, hwait, Progress.andThen_running]
    simp only [State.pulseLow_work, State.withEnv_env, State.withEnv_work, State.pulseHigh_work, hfirst]
  · simp [pulseTrain, hnow, hnow']
  · rw [State.withEnv_env, htime'', State.pulseLow_env, State.withEnv_env, htime']
    simp [htime]

/-- `STEP` with known draws and no time in its two gaps. -/
theorem exec_step_of_script {s : State} {u : Nat} {e1 e2 : Word} {x1 x2 : Nat} {b0 b1 b2 b3 : List Byte}
    {ms : List EnvMove} (hu : u < 2 ^ 32)
    (hs : s.env.script =
      ⟨0, b0, false⟩ :: ⟨x1, b1, false⟩ :: ⟨x2, b2, false⟩ :: ⟨0, b3, false⟩ :: ms)
    (h1 : u / 2 + x1 = e1.toNat) (h2 : u - e1.toNat + x2 = e2.toNat) :
    ∃ t, exec (.step u) s = .next t ∧
      t.obs = s.obs ++
        [.pin .step true s.env.now, .pin .step false (s.env.now + e1), .response ⟨.ok, 0#32⟩] ∧
      t.env.time = s.env.time + e1.toNat + e2.toNat := by
  rw [← wordOfU_toNat hu] at h1 h2
  obtain ⟨v, hv, hobs, hscript, htime⟩ := State.moveStep_of_script hs h1 h2
  refine ⟨_, exec_step_of_moveStep hv (Env.struck_of_script hscript), ?_, ?_⟩
  · simp [hobs, pulseTrain]
  · simp [htime, Env.move_of_script hscript]

/-- Settles O21: the script makes each wait overshoot its bound by what its draw is above it. -/
theorem everyJitterOfAPulseIsAdmitted : Obligations.EveryJitterOfAPulseIsAdmitted := by
  intro s u e1 e2 hu h1 h2
  exact ⟨[⟨0, [], false⟩, ⟨e1.toNat - u / 2, [], false⟩, ⟨e2.toNat - (u - e1.toNat), [], false⟩, ⟨0, [], false⟩],
    exec_step_of_script hu rfl (Nat.add_sub_cancel' h1) (Nat.add_sub_cancel' h2)⟩

/-- Settles O22: the first wait is `u / 2 + x`, the second, exact, the rest of `u`. -/
theorem firstHalfOvershootIsAbsorbed : Obligations.FirstHalfOvershootIsAbsorbed := by
  intro s u x b0 b1 b2 b3 ms hu hx hs
  have h1 : (BitVec.ofNat 32 (u / 2 + x)).toNat = u / 2 + x := Nat.mod_eq_of_lt (hx.trans hu)
  have h2 : (BitVec.ofNat 32 (u - (u / 2 + x))).toNat = u - (u / 2 + x) :=
    Nat.mod_eq_of_lt ((Nat.sub_le _ _).trans_lt hu)
  obtain ⟨t, ht, hobs, htime⟩ := exec_step_of_script (e2 := BitVec.ofNat 32 (u - (u / 2 + x))) hu hs h1.symm
    (by rw [h1, h2, Nat.add_zero])
  refine ⟨t, ht, hobs, ?_⟩
  rw [htime, h1, h2]
  omega

/-! ### `MOVE` on the ideal time base (R135, R138, R156) -/

theorem pulseTrain_range_succ (f : Nat → Word × Word) (n : Nat) :
    pulseTrain ((List.range (n + 1)).map f) =
      pulseTrain [f 0] ++ pulseTrain ((List.range n).map fun k => f (k + 1)) := by
  simp [pulseTrain, List.range_succ_eq_map, List.flatMap_map]

/-- The pulses of a train without overshoot that begins at `now`, by their number (R138). -/
def exactPulse (now dur : Word) (k : Nat) : Word × Word := (now + BitVec.ofNat 32 (k * dur.toNat), dur >>> 1)

theorem exactPulse_eq_fun (now dur : Word) :
    exactPulse now dur = fun k => (now + BitVec.ofNat 32 (k * dur.toNat), dur >>> 1) := rfl

theorem exactPulse_zero (now dur : Word) : exactPulse now dur 0 = (now, dur >>> 1) := by
  simp [exactPulse]

theorem exactPulse_succ (now dur : Word) (k : Nat) : exactPulse now dur (k + 1) = exactPulse (now + dur) dur k := by
  simp only [exactPulse, Nat.succ_mul, BitVec.ofNat_add, BitVec.ofNat_toNat, BitVec.setWidth_eq]
  rw [BitVec.add_comm (BitVec.ofNat 32 (k * dur.toNat)), BitVec.add_assoc]

/-- On the ideal time base a pulse lasts its duration, with the falling edge after half of it. -/
theorem State.moveStep_of_ideal {s : State} {dur : Word} {ms : List EnvMove}
    (hs : s.env.script = List.replicate 3 ⟨0, [], false⟩ ++ ms) :
    ∃ t, s.moveStep dur = .running t ∧ t.obs = s.obs ++ pulseTrain [(s.env.now, dur >>> 1)] ∧
      t.env.script = ms ∧ t.env.time = s.env.time + dur.toNat := by
  obtain ⟨t, ht, hobs, hscript, htime⟩ := State.moveStep_of_script (dur := dur) (e1 := dur >>> 1)
    (e2 := remaining (dur >>> 1) dur) hs (half_toNat dur).symm (remaining_toNat _ dur).symm
  refine ⟨t, ht, hobs, hscript, ?_⟩
  rw [htime, remaining_toNat, half_toNat]
  omega

/-- On the ideal time base the step loop's pulses rise one duration after the other. -/
theorem State.pulses_of_ideal {n : Nat} {s : State} {dur : Word} {ms : List EnvMove}
    (hs : s.env.script = List.replicate (3 * n) ⟨0, [], false⟩ ++ ms) :
    ∃ t, State.pulses dur n s = .running t ∧
      t.obs = s.obs ++ pulseTrain ((List.range n).map (exactPulse s.env.now dur)) ∧
      t.env.script = ms ∧ t.env.time = s.env.time + n * dur.toNat := by
  induction n generalizing s with
  | zero => exact ⟨s, rfl, by simp [pulseTrain], hs, by simp⟩
  | succ n ih =>
    obtain ⟨u, hu, hobs, hscript, htime⟩ := State.moveStep_of_ideal (dur := dur) (ms := _ ++ ms) hs
    have hnow : u.env.now = s.env.now + dur := by
      rw [Env.now, htime, BitVec.ofNat_add, BitVec.ofNat_toNat, BitVec.setWidth_eq]
      rfl
    obtain ⟨t, ht, hobs', hscript', htime'⟩ :=
      ih (s := { u with work := { u.work with nleft := wordOfU n } }) hscript
    refine ⟨t, ?_, ?_, hscript', ?_⟩
    · rw [State.pulses, hu, Progress.andThen_running, ht]
    · simp only [hobs', hobs, hnow, pulseTrain_range_succ, exactPulse_zero, exactPulse_succ, List.append_assoc]
    · rw [htime', htime, Nat.succ_mul]
      omega

/-- Above the threshold `MOVE` is a gap, the ramp tick to the speed `c`, the step loop with its duration `d`, and the
response. -/
theorem exec_move_of_pulses {n : Nat} {s u t : State} {c d : Word} (hgap : s.gap = .running u)
    (hc : rampTick u.cur u.tgt = c) (habove : aboveThreshold c = true) (hd : stepDuration c u.params.spr = d)
    (ht : State.pulses d n { u with cur := c, work := { u.work with nleft := wordOfU n } } = .running t)
    (h : t.env.struck = false) :
    exec (.move n) s = .next ((t.withEnv t.env.pass).answer ⟨.ok, wordOfU n⟩) := by
  rw [exec, execMove, hgap, Progress.andThen_running]
  dsimp only
  rw [hc, hd, if_pos habove, ht, Progress.andThen_running, State.respond_of_not_struck h, Progress.outcome_running]

/-- Settles O27: the first move is the gap before the ramp tick, three are each pulse's, and the last is the gap before
the response. -/
theorem moveOnTheIdealTimeBase : Obligations.MoveOnTheIdealTimeBase := by
  intro n s d ms hs habove hd
  generalize hc : rampTick s.cur s.tgt = c at habove hd
  rw [List.replicate_succ, List.replicate_succ', List.cons_append, List.append_assoc, List.singleton_append] at hs
  obtain ⟨e, hgap, htime, hscript⟩ := State.gap_of_script hs
  have hnow : e.now = s.env.now := congrArg (BitVec.ofNat 32) htime
  obtain ⟨t, ht, hobs, hscript', htime'⟩ := State.pulses_of_ideal
    (s := { s.withEnv e with cur := c, work := { s.work with nleft := wordOfU n } }) (dur := d) hscript
  refine ⟨_, exec_move_of_pulses hgap hc habove hd.symm ht (Env.struck_of_script hscript'), ?_, ?_⟩
  · simp [htime', htime, Env.move_of_script hscript']
  · simp [hobs, hnow, wordOfU, exactPulse_eq_fun]

end Sys2Proof.Machine
end

section
/-! SUPPORT. Pulses do not depend on `EN` and `PIN_EN` (41_pulse.md R139): with any other values in them, and no reset
planned, each part of `STEP` and of `MOVE` does the same and leaves them as they were. -/

namespace Sys2Proof.Machine

/-- The same state with other values in `EN` and `PIN_EN`. -/
def State.withEnable (s : State) (b c : Bool) : State := { s with en := b, pinEn := c }

/-- Two runs of one part of a command: both run on, to states that differ in those two elements alone, with no reset
planned after it. -/
def Progress.SameButEnable (b c : Bool) (p q : Progress) : Prop :=
  ∃ t, p = .running t ∧ q = .running (t.withEnable b c) ∧ t.env.quiet = true

/-- A part of a command that does the same whatever the two elements hold. -/
def EnableBlind (f : State → Progress) : Prop :=
  ∀ s b c, s.env.quiet = true → Progress.SameButEnable b c (f s) (f (s.withEnable b c))

/-- A choice that both runs make alike. -/
theorem Progress.SameButEnable.ite {a : Prop} [Decidable a] {b c : Bool} {p p' q q' : Progress}
    (h : SameButEnable b c p q) (h' : SameButEnable b c p' q') :
    SameButEnable b c (if a then p else p') (if a then q else q') := by
  split
  · exact h
  · exact h'

/-- The parts of a command, one after the other. -/
theorem EnableBlind.andThen {f g : State → Progress} (hf : EnableBlind f) (hg : EnableBlind g) :
    EnableBlind fun s => (f s).andThen g := by
  intro s b c hq
  obtain ⟨u, hu, hu', hqu⟩ := hf s b c hq
  dsimp only
  rw [hu, hu']
  exact hg u b c hqu

/-! ### The parts of a command -/

theorem enableBlind_gap : EnableBlind State.gap :=
  fun s b c hq => ⟨s.withEnv s.env.pass, State.gap_quiet hq, State.gap_quiet (s := s.withEnable b c) hq,
    Env.pass_quiet hq⟩

theorem enableBlind_respond (st : Status) (data : Word) : EnableBlind fun s => s.respond st data :=
  enableBlind_gap.andThen fun s _ _ hq => ⟨s.answer ⟨st, data⟩, rfl, rfl, hq⟩

/-- A wait from values that do not depend on the two elements. -/
theorem State.wait_sameButEnable {s : State} (t d : Word) (b c : Bool) (hq : s.env.quiet = true) :
    Progress.SameButEnable b c (s.wait t d) ((s.withEnable b c).wait t d) :=
  ⟨s.withEnv (s.env.waitFrom t d), State.wait_quiet t d hq, State.wait_quiet (s := s.withEnable b c) t d hq,
    Env.waitFrom_quiet t d hq⟩

theorem enableBlind_moveStep (dur : Word) : EnableBlind fun s => s.moveStep dur := by
  refine enableBlind_gap.andThen (EnableBlind.andThen (fun s b c hq => ?_) fun s b c hq => ?_)
  · exact State.wait_sameButEnable (s := s.pulseHigh dur) _ _ b c hq
  · exact State.wait_sameButEnable (s := s.pulseLow dur) _ _ b c hq

theorem enableBlind_pulses (dur : Word) (n : Nat) : EnableBlind (State.pulses dur n) := by
  induction n with
  | zero => exact fun s _ _ hq => ⟨s, rfl, rfl, hq⟩
  | succ n ih =>
    refine (enableBlind_moveStep dur).andThen fun s b c hq => ?_
    exact ih { s with work := { s.work with nleft := wordOfU n } } b c hq

/-! ### The commands -/

theorem EnableBlind.outcome {f : State → Progress} {s t : State} (hf : EnableBlind f) (b c : Bool)
    (hq : s.env.quiet = true) (h : (f s).outcome = .next t) :
    (f (s.withEnable b c)).outcome = .next (t.withEnable b c) := by
  obtain ⟨u, hu, hu', -⟩ := hf s b c hq
  rw [hu] at h
  cases h
  rw [hu']
  rfl

/-- Settles O23: every part of a `STEP` and of a `MOVE` is blind to `EN` and `PIN_EN`. -/
theorem enableNeverGatesPulses : Obligations.EnableNeverGatesPulses := by
  rintro i s t b c (⟨u, rfl⟩ | ⟨n, rfl⟩) hq hx
  · exact ((enableBlind_moveStep (wordOfU u)).andThen (enableBlind_respond _ _)).outcome b c hq hx
  · refine (enableBlind_gap.andThen fun v b c hq => ?_).outcome b c hq hx
    dsimp only [State.withEnable]
    generalize rampTick v.cur v.tgt = speed
    refine .ite ?_ (enableBlind_respond _ _ { v with cur := speed } b c hq)
    exact (enableBlind_pulses _ n).andThen (enableBlind_respond _ _)
      { v with cur := speed, work := { v.work with nleft := wordOfU n } } b c hq

end Sys2Proof.Machine
end

section
/-! SUPPORT. The rounding function (42_motion.md R151, R152): it is monotone, odd and the identity on representable
values, its error is at most half a unit, and it is the algorithm that the rule writes on rationals. -/

namespace Sys2Proof.Machine.F32

/-! ### Division to the nearest integer, ties to even -/

/-- `n / u` to the nearest integer, ties to even: the tie rule of R152. -/
def nearestEven (n u : Nat) : Nat :=
  if u < 2 * (n % u) ∨ (2 * (n % u) = u ∧ n / u % 2 = 1) then n / u + 1 else n / u

theorem rndSig_eq_nearestEven (n d : Nat) : rndSig n d = nearestEven n (d * 2 ^ rndExp n d) := rfl

theorem nearestEven_le_succ (n u : Nat) : nearestEven n u ≤ n / u + 1 := by
  unfold nearestEven
  split <;> omega

theorem le_nearestEven (n u : Nat) : n / u ≤ nearestEven n u := by
  unfold nearestEven
  split <;> omega

theorem nearestEven_of_mul (q : Nat) {u : Nat} (hu : 0 < u) : nearestEven (q * u) u = q := by
  rw [nearestEven, Nat.mul_mod_left, Nat.mul_div_cancel q hu, if_neg (by omega)]

theorem nearestEven_mono {n u m v : Nat} (hu : 0 < u) (hv : 0 < v) (h : n * v ≤ m * u) :
    nearestEven n u ≤ nearestEven m v := by
  have hn := Nat.div_add_mod n u
  have hm := Nat.div_add_mod m v
  have hq : n / u ≤ m / v := by
    rw [Nat.le_div_iff_mul_le hv]
    refine Nat.le_of_mul_le_mul_right ?_ hu
    calc n / u * v * u = n / u * u * v := Nat.mul_right_comm ..
      _ ≤ n * v := Nat.mul_le_mul_right v (Nat.div_mul_le_self n u)
      _ ≤ m * u := h
  rcases hq.lt_or_eq with hlt | heq
  · exact (nearestEven_le_succ n u).trans (hlt.trans_le (le_nearestEven m v))
  · have hnv : n * v = m / v * (u * v) + n % u * v := by
      conv_lhs => rw [← hn, heq]
      ring
    have hmu : m * u = m / v * (u * v) + m % v * u := by
      conv_lhs => rw [← hm]
      ring
    have hrem : n % u * v ≤ m % v * u := by omega
    have hup : u ≤ 2 * (n % u) → v ≤ 2 * (m % v) ∧ (u < 2 * (n % u) → v < 2 * (m % v)) := by
      intro hr
      exact ⟨by nlinarith, fun hr => by nlinarith⟩
    unfold nearestEven
    rw [heq]
    split
    · rename_i hc
      rw [if_pos (by omega)]
    · split
      · omega
      · exact le_rfl

/-! ### The rounded magnitude -/

/-- The rounded magnitude `n / d` in units of 2^-149: the `m × u` of R152. -/
def rounded (n d : Nat) : Nat := rndSig n d * 2 ^ rndExp n d

@[simp] theorem rounded_zero (d : Nat) : rounded 0 d = 0 := by
  simp [rounded, rndSig, rndExp]

theorem rndExp_mono {n d m e : Nat} (h : n / d ≤ m / e) : rndExp n d ≤ rndExp m e := by
  unfold rndExp
  rw [Nat.log2_eq_log_two, Nat.log2_eq_log_two]
  exact Nat.sub_le_sub_right (Nat.log_mono_right h) 23

/-- Below `2^(k + 24)` the unit is at most `2^k`. -/
theorem rndExp_le_of_lt {n d k : Nat} (h : n / d < 2 ^ (k + 24)) : rndExp n d ≤ k := by
  unfold rndExp
  by_cases hz : n / d = 0
  · simp [hz]
  · have := (Nat.log2_lt hz).mpr h
    omega

theorem rounded_mono {n d m e : Nat} (hd : 0 < d) (he : 0 < e) (h : n * e ≤ m * d) :
    rounded n d ≤ rounded m e := by
  have hq : n / d ≤ m / e := by
    rw [Nat.le_div_iff_mul_le he]
    refine Nat.le_of_mul_le_mul_right ?_ hd
    calc n / d * e * d = n / d * d * e := Nat.mul_right_comm ..
      _ ≤ n * e := Nat.mul_le_mul_right e (Nat.div_mul_le_self n d)
      _ ≤ m * d := h
  unfold rounded
  rcases (rndExp_mono hq).lt_or_eq with hlt | heq
  · calc rndSig n d * 2 ^ rndExp n d ≤ 2 ^ 24 * 2 ^ rndExp n d := Nat.mul_le_mul_right _ (rndSig_le n d)
      _ = 2 ^ 23 * 2 ^ (rndExp n d + 1) := by rw [pow_succ]; ring
      _ ≤ rndSig m e * 2 ^ rndExp m e :=
        Nat.mul_le_mul (le_rndSig (by omega)) (Nat.pow_le_pow_right (by decide) hlt)
  · rw [rndSig_eq_nearestEven, rndSig_eq_nearestEven, heq]
    refine Nat.mul_le_mul_right _ (nearestEven_mono (by positivity) (by positivity) ?_)
    calc n * (e * 2 ^ rndExp m e) = n * e * 2 ^ rndExp m e := (Nat.mul_assoc ..).symm
      _ ≤ m * d * 2 ^ rndExp m e := Nat.mul_le_mul_right _ h
      _ = m * (d * 2 ^ rndExp m e) := Nat.mul_assoc ..

/-- The significand and the exponent of a magnitude that has both, in canonical form. -/
theorem rnd_of_parts {m k : Nat} (hm : m < 2 ^ 24) (hk : 0 < k → 2 ^ 23 ≤ m) :
    rndExp (m * 2 ^ k) 1 = k ∧ rndSig (m * 2 ^ k) 1 = m := by
  have hexp : rndExp (m * 2 ^ k) 1 = k := by
    refine le_antisymm (rndExp_le_of_lt ?_) ?_
    · rw [Nat.div_one, Nat.add_comm, pow_add]
      exact Nat.mul_lt_mul_of_pos_right hm (by positivity)
    · rcases Nat.eq_zero_or_pos k with rfl | hpos
      · exact Nat.zero_le _
      · have hle : 2 ^ (23 + k) ≤ m * 2 ^ k := by
          rw [pow_add]
          exact Nat.mul_le_mul_right _ (hk hpos)
        have hne : m * 2 ^ k ≠ 0 := (lt_of_lt_of_le (by positivity) hle).ne'
        have := (Nat.le_log2 hne).mpr hle
        rw [rndExp, Nat.div_one]
        omega
  refine ⟨hexp, ?_⟩
  rw [rndSig_eq_nearestEven, hexp, Nat.one_mul, nearestEven_of_mul m (by positivity)]

/-- A magnitude with a significand of 24 bits is rounded to itself. -/
theorem rounded_of_lt {m : Nat} (k : Nat) (hm : m < 2 ^ 24) : rounded (m * 2 ^ k) 1 = m * 2 ^ k := by
  have hexp : rndExp (m * 2 ^ k) 1 ≤ k := rndExp_le_of_lt (by
    rw [Nat.div_one, Nat.add_comm, pow_add]
    exact Nat.mul_lt_mul_of_pos_right hm (by positivity))
  have hsplit : m * 2 ^ k = m * 2 ^ (k - rndExp (m * 2 ^ k) 1) * 2 ^ rndExp (m * 2 ^ k) 1 := by
    rw [Nat.mul_assoc, ← pow_add, Nat.sub_add_cancel hexp]
  rw [rounded, rndSig_eq_nearestEven, Nat.one_mul]
  generalize rndExp (m * 2 ^ k) 1 = l at *
  rw [hsplit, nearestEven_of_mul _ (by positivity)]

/-- The rounding error is at most half a unit. -/
theorem rounded_error (n : Nat) {d : Nat} (hd : 0 < d) :
    2 * n ≤ 2 * (rounded n d * d) + d * 2 ^ rndExp n d ∧ 2 * (rounded n d * d) ≤ 2 * n + d * 2 ^ rndExp n d := by
  have h : rounded n d * d = rndSig n d * (d * 2 ^ rndExp n d) := by rw [rounded]; ring
  rw [h]
  exact rndSig_nearest n hd

/-- From 2^-126 on, 2^23 units, the half unit is at most 2^-24 of the magnitude. -/
theorem unit_le_of_normal {n d : Nat} (hd : 0 < d) (hn : 2 ^ 23 * d ≤ n) : 2 ^ 23 * (d * 2 ^ rndExp n d) ≤ n := by
  rcases Nat.eq_zero_or_pos (rndExp n d) with hz | hpos
  · rwa [hz, pow_zero, Nat.mul_one]
  · exact (Nat.le_div_iff_mul_le (by positivity)).mp ((quotient_bounds n d).2 hpos)

/-! ### The domain and the value of a rounded quotient -/

theorem inDomain_iff {num : Int} {den : Nat} :
    inDomain num den = true ↔ 0 < den ∧ num.natAbs < 2 ^ 276 * den := by
  rw [inDomain, Bool.and_eq_true, bne_iff_ne, decide_eq_true_iff, Nat.pos_iff_ne_zero]
  refine and_congr_right fun hd => ?_
  rw [← Nat.div_lt_iff_lt_mul (Nat.pos_of_ne_zero hd)]
  by_cases hz : num.natAbs / den = 0
  · rw [hz]
    exact iff_of_true (by decide) (by positivity)
  · exact Nat.log2_lt hz

/-- A quotient well inside the domain. -/
theorem inDomain_of_le {num : Int} {den : Nat} (hd : 0 < den) (h : |num| ≤ 2 ^ 200 * (den : Int)) :
    inDomain num den = true := by
  refine inDomain_iff.mpr ⟨hd, lt_of_le_of_lt (b := 2 ^ 200 * den) ?_ ?_⟩
  · zify
    exact h
  · exact Nat.mul_lt_mul_of_pos_right (Nat.pow_lt_pow_right (by decide) (by decide)) hd

theorem inDomain_neg {num : Int} {den : Nat} : inDomain (-num) den = inDomain num den := by
  simp [inDomain]

/-- The value of a rounded quotient is its sign and its rounded magnitude. -/
theorem val_rnd32_eq {num : Int} {den : Nat} (h : inDomain num den = true) :
    val (rnd32 num den) = num.sign * rounded num.natAbs den := by
  rw [(val_rnd32 h).2]
  change _ * (rounded num.natAbs den : Int) = _
  rcases lt_trichotomy num 0 with hneg | rfl | hpos
  · rw [if_pos hneg, Int.sign_eq_neg_one_of_neg hneg]
  · simp
  · rw [if_neg hpos.not_gt, Int.sign_eq_one_of_pos hpos]

theorem natAbs_val_rnd32 {num : Int} {den : Nat} (h : inDomain num den = true) :
    (val (rnd32 num den)).natAbs = rounded num.natAbs den := by
  rw [val_rnd32_eq h, Int.natAbs_mul, Int.natAbs_natCast]
  by_cases hz : num = 0
  · simp [hz]
  · rw [Int.natAbs_sign_of_ne_zero hz, Nat.one_mul]

/-- A rounded quotient is never the pattern of negative zero: a zero result is +0, another has a magnitude. -/
theorem rnd32_ne_negZero {num : Int} {den : Nat} (h : inDomain num den = true) :
    rnd32 num den ≠ 0x80000000#32 := by
  have hk := rndExp_le h
  have hm := rndSig_le num.natAbs den
  rw [rnd32, if_pos h]
  split
  · decide
  · intro heq
    have hpattern := congrArg BitVec.toNat heq
    unfold rndMag at *
    rw [BitVec.toNat_ofNat] at hpattern
    norm_num at hpattern
    split at hpattern <;> omega

/-- A rounded quotient is off by at most half a unit. -/
theorem val_rnd32_error {num : Int} {den : Nat} (h : inDomain num den = true) :
    2 * |val (rnd32 num den) * den - num| ≤ den * 2 ^ rndExp num.natAbs den := by
  obtain ⟨hlow, hhigh⟩ := rounded_error num.natAbs (inDomain_iff.mp h).1
  have hmag : |val (rnd32 num den) * den - num| = |(rounded num.natAbs den * den : Int) - num.natAbs| := by
    rw [val_rnd32_eq h]
    rcases lt_trichotomy num 0 with hneg | rfl | hpos
    · rw [Int.sign_eq_neg_one_of_neg hneg, Int.ofNat_natAbs_of_nonpos hneg.le, ← abs_neg]
      congr 1
      ring
    · simp
    · rw [Int.sign_eq_one_of_pos hpos, Int.natAbs_of_nonneg hpos.le, one_mul]
  have hlow : 2 * (num.natAbs : Int) ≤ 2 * (rounded num.natAbs den * den) + den * 2 ^ rndExp num.natAbs den := by
    exact_mod_cast hlow
  have hhigh : 2 * (rounded num.natAbs den * den : Int) ≤ 2 * num.natAbs + den * 2 ^ rndExp num.natAbs den := by
    exact_mod_cast hhigh
  have hhalf : |(rounded num.natAbs den * den : Int) - num.natAbs| * 2 ≤ den * 2 ^ rndExp num.natAbs den := by
    rcases abs_cases ((rounded num.natAbs den * den : Int) - num.natAbs) with ⟨habs, -⟩ | ⟨habs, -⟩
    · rw [habs]
      linarith
    · rw [habs]
      linarith
  rwa [hmag, mul_comm]

/-! ### Monotone, identity on representable values, odd, relative error (R152) -/

theorem val_rnd32_neg {num : Int} {den : Nat} (h : inDomain num den = true) :
    val (rnd32 (-num) den) = -val (rnd32 num den) := by
  rw [val_rnd32_eq (inDomain_neg.trans h), val_rnd32_eq h, Int.sign_neg, Int.natAbs_neg, neg_mul]

theorem val_rnd32_of_nonneg {num : Int} {den : Nat} (h : inDomain num den = true) (hn : 0 ≤ num) :
    val (rnd32 num den) = rounded num.natAbs den := by
  rw [val_rnd32_eq h]
  rcases hn.eq_or_lt with rfl | hpos
  · simp
  · rw [Int.sign_eq_one_of_pos hpos, one_mul]

theorem val_rnd32_mono_of_nonneg {a b : Int} {d e : Nat} (ha : inDomain a d = true) (hb : inDomain b e = true)
    (h : a * e ≤ b * d) (hnn : 0 ≤ a) : val (rnd32 a d) ≤ val (rnd32 b e) := by
  have hd := (inDomain_iff.mp ha).1
  have he := (inDomain_iff.mp hb).1
  have hbn : 0 ≤ b := nonneg_of_mul_nonneg_left ((by positivity : 0 ≤ a * e).trans h) (by exact_mod_cast hd)
  rw [val_rnd32_of_nonneg ha hnn, val_rnd32_of_nonneg hb hbn]
  refine Int.ofNat_le.mpr (rounded_mono hd he ?_)
  zify
  rwa [abs_of_nonneg hnn, abs_of_nonneg hbn]

theorem val_rnd32_mono {a b : Int} {d e : Nat} (ha : inDomain a d = true) (hb : inDomain b e = true)
    (h : a * e ≤ b * d) : val (rnd32 a d) ≤ val (rnd32 b e) := by
  rcases le_or_gt 0 a with hna | hna
  · exact val_rnd32_mono_of_nonneg ha hb h hna
  · rcases le_or_gt 0 b with hnb | hnb
    · calc val (rnd32 a d) = -rounded (-a).natAbs d := by
            rw [← neg_neg a, val_rnd32_neg (inDomain_neg.trans ha), neg_neg,
              val_rnd32_of_nonneg (inDomain_neg.trans ha) (by omega)]
        _ ≤ rounded b.natAbs e := by omega
        _ = val (rnd32 b e) := (val_rnd32_of_nonneg hb hnb).symm
    · have hneg := val_rnd32_mono_of_nonneg (inDomain_neg.trans hb) (inDomain_neg.trans ha)
        (by linarith : -b * d ≤ -a * e) (by omega)
      rw [val_rnd32_neg ha, val_rnd32_neg hb] at hneg
      exact neg_le_neg_iff.mp hneg

/-- Settles O32: the rounded magnitude is monotone, and the sign is kept. -/
theorem roundingIsMonotone : Obligations.RoundingIsMonotone :=
  fun _ _ _ _ ha hb h => val_rnd32_mono ha hb h

/-- Settles O34: the sign is rounded apart from the magnitude. -/
theorem roundingIsOdd : Obligations.RoundingIsOdd := fun _ _ h => val_rnd32_neg h

/-- The significand and the exponent of a finite magnitude, canonical, and where its pattern holds them (R151). -/
theorem mag_parts (p : Word) : ∃ m k, m < 2 ^ 24 ∧ (0 < k → 2 ^ 23 ≤ m) ∧
    mag p = m * 2 ^ k ∧ p.toNat % 2 ^ 31 = k * 2 ^ 23 + m := by
  have he := expo_toNat p
  have hf := frac_toNat p
  unfold mag
  split
  · exact ⟨frac p, 0, by omega, by omega, by simp, by omega⟩
  · exact ⟨2 ^ 23 + frac p, expo p - 1, by omega, by omega, rfl, by omega⟩

theorem val_of_finite {p : Word} (h : finite p = true) :
    val p = if 2 ^ 31 ≤ p.toNat then -(mag p : Int) else (mag p : Int) := by
  rw [val, if_pos h, sign_toNat]
  simp only [decide_eq_true_iff]

theorem natAbs_val {p : Word} (h : finite p = true) : (val p).natAbs = mag p := by
  rw [val_of_finite h]
  split <;> simp

/-- The value of a finite pattern is rounded to its pattern, that of negative zero apart. -/
theorem rnd32_val {p : Word} (h : finite p = true) (hz : p ≠ 0x80000000#32) (hd : inDomain (val p) 1 = true) :
    rnd32 (val p) 1 = p := by
  obtain ⟨m, k, hm, hk, hmag, hp⟩ := mag_parts p
  obtain ⟨hexp, hsig⟩ := rnd_of_parts hm hk
  have hz : p.toNat ≠ 2 ^ 31 := fun hc => hz (BitVec.eq_of_toNat_eq hc)
  have hlt := p.isLt
  have hrnd : rndMag (val p).natAbs 1 = p.toNat % 2 ^ 31 := by
    rw [natAbs_val h, rndMag, hmag, hexp, hsig, hp]
  apply BitVec.eq_of_toNat_eq
  rw [rnd32, if_pos hd, hrnd]
  split
  · rw [BitVec.toNat_ofNat]
    omega
  · have hpos : 0 < mag p := by
      rw [hmag]
      refine Nat.mul_pos ?_ (by positivity)
      rcases Nat.eq_zero_or_pos k with rfl | hk'
      · omega
      · exact lt_of_lt_of_le (by decide) (hk hk')
    have hsign : val p < 0 ↔ 2 ^ 31 ≤ p.toNat := by
      rw [val_of_finite h]
      split <;> omega
    rw [BitVec.toNat_ofNat]
    simp only [hsign]
    split <;> omega

/-- Settles O33: the significand and the exponent field of the pattern are those of its value. -/
theorem roundingFixesRepresentableValues : Obligations.RoundingFixesRepresentableValues := by
  intro p h hz hlt
  exact rnd32_val h hz (inDomain_iff.mpr ⟨Nat.one_pos, by rwa [Nat.mul_one]⟩)

/-- The relative error of a rounding in the normal range, from 2^23 units on, in units. -/
theorem val_rnd32_relative_error {num : Int} {den : Nat} (h : inDomain num den = true)
    (hn : 2 ^ 23 * den ≤ num.natAbs) : 2 ^ 24 * |val (rnd32 num den) * den - num| ≤ |num| := by
  have herr := val_rnd32_error h
  have hunit : 2 ^ 23 * (den * 2 ^ rndExp num.natAbs den : Int) ≤ |num| := by
    rw [← Int.natCast_natAbs]
    exact_mod_cast unit_le_of_normal (inDomain_iff.mp h).1 hn
  linarith

/-! ### Quotients as rational numbers -/

/-- The distance of a value from a quotient, both as the rational numbers of R151. -/
theorem toRat_sub_quotient (p : Word) (num : Int) {den : Nat} (hd : 0 < den) :
    toRat p - (num : Rat) / den / 2 ^ 149 = (val p * den - num : Int) / den / 2 ^ 149 := by
  have : (den : Rat) ≠ 0 := by positivity
  rw [toRat]
  push_cast
  field_simp

theorem abs_quotient (num : Int) (den : Nat) :
    |(num : Rat) / den / 2 ^ 149| = (num.natAbs : Rat) / den / 2 ^ 149 := by
  rw [abs_div, abs_div, Nat.abs_cast, Nat.cast_natAbs, Int.cast_abs, abs_of_pos (by positivity : (0 : Rat) < 2 ^ 149)]

/-- Settles O35: half a unit is at most 2^-24 of the magnitude. -/
theorem relativeErrorOfARoundingIsAtMostTwoToTheMinus24 :
    Obligations.RelativeErrorOfARoundingIsAtMostTwoToTheMinus24 := by
  intro num den h hnormal
  have hd : 0 < den := (inDomain_iff.mp h).1
  have hn : 2 ^ 23 * den ≤ num.natAbs := by
    have hscale : (1 / 2 ^ 126 * 2 ^ 149 : Rat) = 2 ^ 23 := by norm_num
    rw [abs_quotient, le_div_iff₀ (by positivity), hscale, le_div_iff₀ (by positivity)] at hnormal
    exact_mod_cast hnormal
  have herr : 2 ^ 24 * (val (rnd32 num den) * den - num).natAbs ≤ num.natAbs := by
    zify
    exact val_rnd32_relative_error h hn
  rw [toRat_sub_quotient _ _ hd, abs_quotient, abs_quotient, div_right_comm _ _ (2 ^ 24), div_right_comm _ _ (2 ^ 24)]
  gcongr
  rw [le_div_iff₀ (by positivity), mul_comm]
  exact_mod_cast herr

/-! ### The algorithm of R152 -/

/-- `2^rndExp` units as the rounding unit of R152. -/
theorem two_zpow_unit (k : Nat) : (2 : Rat) ^ ((k : Int) - 149) = 2 ^ k / 2 ^ 149 := by
  rw [zpow_sub₀ two_ne_zero, zpow_natCast]
  rfl

/-- A magnitude is its quotient by the rounding unit, times the unit. -/
theorem quotient_eq_mul_unit (n k : Nat) {d : Nat} (hd : 0 < d) :
    (n : Rat) / d / 2 ^ 149 = n / (d * 2 ^ k : Nat) * 2 ^ ((k : Int) - 149) := by
  have : (d : Rat) ≠ 0 := by positivity
  rw [two_zpow_unit]
  push_cast
  field_simp

/-- The exponent of the rounding unit is that of R152. -/
theorem log_quotient {n d : Nat} (hn : 0 < n) (hd : 0 < d) :
    max (Int.log 2 ((n : Rat) / d / 2 ^ 149)) (-126) - 23 = (rndExp n d : Int) - 149 := by
  obtain ⟨hlt, hle⟩ := quotient_bounds n d
  have hpos : (0 : Rat) < n / d / 2 ^ 149 := by positivity
  rw [Nat.div_lt_iff_lt_mul (by positivity)] at hlt
  rw [Nat.le_div_iff_mul_le (by positivity)] at hle
  have hq := quotient_eq_mul_unit n (rndExp n d) hd
  generalize rndExp n d = k at *
  have hu : (0 : Rat) < (d * 2 ^ k : Nat) := by positivity
  have hhigh : Int.log 2 ((n : Rat) / d / 2 ^ 149) < (24 : Nat) + ((k : Int) - 149) := by
    rw [← Int.lt_zpow_iff_log_lt (by decide) hpos, hq, Nat.cast_ofNat, zpow_add₀ two_ne_zero, zpow_natCast]
    gcongr
    rw [div_lt_iff₀ hu]
    exact_mod_cast hlt
  have hlow : 0 < k → (23 : Nat) + ((k : Int) - 149) ≤ Int.log 2 ((n : Rat) / d / 2 ^ 149) := by
    intro hk
    rw [← Int.zpow_le_iff_le_log (by decide) hpos, hq, Nat.cast_ofNat, zpow_add₀ two_ne_zero, zpow_natCast]
    gcongr
    rw [le_div_iff₀ hu]
    exact_mod_cast hle hk
  omega

/-- The tie rule as R152 writes it, on the fractional part of the quotient. -/
theorem tieRule_eq_nearestEven (n : Nat) {u : Nat} (hu : 0 < u) :
    (if 1 / 2 < (n : Rat) / u - ⌊(n : Rat) / u⌋ ∨ ((n : Rat) / u - ⌊(n : Rat) / u⌋ = 1 / 2 ∧ ⌊(n : Rat) / u⌋ % 2 = 1)
      then ⌊(n : Rat) / u⌋ + 1 else ⌊(n : Rat) / u⌋) = (nearestEven n u : Int) := by
  have hu' : (0 : Rat) < u := by positivity
  have hfloor : ⌊(n : Rat) / u⌋ = (n / u : Nat) := Rat.floor_natCast_div_natCast n u
  have hrem : (n : Rat) / u - ⌊(n : Rat) / u⌋ = (n % u : Nat) / u := Int.fract_div_natCast_eq_div_natCast_mod
  have hgt : 1 / 2 < ((n % u : Nat) : Rat) / u ↔ u < 2 * (n % u) := by
    rw [div_lt_div_iff₀ two_pos hu', one_mul, mul_comm]
    exact_mod_cast Iff.rfl
  have heq : ((n % u : Nat) : Rat) / u = 1 / 2 ↔ 2 * (n % u) = u := by
    rw [div_eq_div_iff hu'.ne' two_ne_zero, one_mul, mul_comm]
    exact_mod_cast Iff.rfl
  have hodd : ((n / u : Nat) : Int) % 2 = 1 ↔ n / u % 2 = 1 := by exact_mod_cast Iff.rfl
  rw [hrem, hfloor]
  simp only [hgt, heq, hodd, nearestEven]
  split <;> simp

/-- The algorithm of R152 on a quotient of units. -/
theorem specRnd32_quotient (num : Int) {den : Nat} (hd : 0 < den) :
    specRnd32 ((num : Rat) / den / 2 ^ 149) = num.sign * rounded num.natAbs den / 2 ^ 149 := by
  by_cases hz : num = 0
  · simp [hz, specRnd32]
  · have hd' : (0 : Rat) < den := by positivity
    have hx : (num : Rat) / den / 2 ^ 149 ≠ 0 := by positivity
    have hsign : (num : Rat) / den / 2 ^ 149 < 0 ↔ num < 0 := by
      rw [div_lt_iff₀ (by positivity), zero_mul, div_lt_iff₀ hd', zero_mul, Int.cast_lt_zero]
    have hunit : (2 : Rat) ^ ((rndExp num.natAbs den : Int) - 149) ≠ 0 := by positivity
    rw [specRnd32, if_neg hx]
    dsimp only
    rw [abs_quotient, log_quotient (Int.natAbs_pos.mpr hz) hd, quotient_eq_mul_unit _ (rndExp num.natAbs den) hd,
      mul_div_cancel_right₀ _ hunit, tieRule_eq_nearestEven _ (by positivity), two_zpow_unit, rounded,
      rndSig_eq_nearestEven]
    rcases lt_or_gt_of_ne hz with hneg | hpos
    · rw [if_pos (hsign.mpr hneg), Int.sign_eq_neg_one_of_neg hneg]
      push_cast
      ring
    · rw [if_neg (mt hsign.mp hpos.not_gt), Int.sign_eq_one_of_pos hpos]
      push_cast
      ring

/-- The domain of R152, on rationals. -/
theorem inDomain_of_abs_lt {num : Int} {den : Nat} (hd : 0 < den) (h : |(num : Rat) / den / 2 ^ 149| < 2 ^ 127) :
    inDomain num den = true := by
  rw [abs_quotient, div_lt_iff₀ (by positivity), ← pow_add, div_lt_iff₀ (by positivity)] at h
  exact inDomain_iff.mpr ⟨hd, by exact_mod_cast h⟩

theorem toRat_rnd32 {num : Int} {den : Nat} (h : inDomain num den = true) :
    toRat (rnd32 num den) = specRnd32 ((num : Rat) / den / 2 ^ 149) := by
  rw [specRnd32_quotient num (inDomain_iff.mp h).1, toRat, val_rnd32_eq h]
  push_cast
  rfl

/-- Settles O31: unit, floor, remainder and tie rule are those of the rule. -/
theorem roundingIsTheAlgorithmOfR152 : Obligations.RoundingIsTheAlgorithmOfR152 :=
  fun _ _ hd hlt => toRat_rnd32 (inDomain_of_abs_lt (Nat.pos_of_ne_zero hd) hlt)

end Sys2Proof.Machine.F32
end

section
/-! SUPPORT. The ramp tick on legal speeds (42_motion.md R157, R159 to R161): it is the rounded recurrence of the rule,
it snaps exactly when the gap is below 0.25 - 2^-27, and else it moves by a fifth of the gap up to its rounding errors,
from which it never overshoots, stays in range and settles. -/

namespace Sys2Proof.Machine

open F32

/-! ### The constants of the tick (R157) -/

@[simp] theorem val_snap : val Config.snap = 2 ^ 147 := by decide
@[simp] theorem val_rampDiv : val Config.rampDiv = 5 * 2 ^ 149 := by decide

/-- The divisor 5 in units. -/
theorem fdiv_rampDiv (a : Word) : fdiv a Config.rampDiv = rnd32 (val a * 2 ^ 149) (5 * 2 ^ 149) := by
  rw [fdiv, val_rampDiv, Int.sign_eq_one_of_pos (by positivity), mul_one]
  rfl

/-! ### Legal speeds (R161) -/

theorem legalSpeed_iff (p : Word) :
    legalSpeed p = true ↔ finite p = true ∧ |val p| ≤ 2 ^ 165 ∧ p ≠ 0x80000000#32 := by
  have hle : (val p).natAbs ≤ 65536 * 2 ^ 149 ↔ |val p| ≤ 2 ^ 165 := by
    rw [← Int.natCast_natAbs]
    omega
  rw [legalSpeed, Bool.and_eq_true, Bool.and_eq_true, decide_eq_true_iff, bne_iff_ne, hle, and_assoc]

theorem abs_val_le_of_legal {p : Word} (h : legalSpeed p = true) : |val p| ≤ 2 ^ 165 :=
  ((legalSpeed_iff p).mp h).2.1

/-- A rounded quotient of at most 65536 is a legal speed. -/
theorem legalSpeed_rnd32 {num : Int} {den : Nat} (h : inDomain num den = true)
    (hle : |val (rnd32 num den)| ≤ 2 ^ 165) : legalSpeed (rnd32 num den) = true :=
  (legalSpeed_iff _).mpr ⟨(val_rnd32 h).1, hle, rnd32_ne_negZero h⟩

section Tick
variable {c t : Word} (hc : legalSpeed c = true) (ht : legalSpeed t = true)
include hc ht

theorem abs_gap_le : |val t - val c| ≤ 2 ^ 166 :=
  calc |val t - val c| ≤ |val t| + |val c| := abs_sub _ _
    _ ≤ 2 ^ 165 + 2 ^ 165 := add_le_add (abs_val_le_of_legal ht) (abs_val_le_of_legal hc)
    _ = 2 ^ 166 := by norm_num

theorem rampDelta_inDomain : inDomain (val t - val c) 1 = true :=
  inDomain_of_le Nat.one_pos ((abs_gap_le hc ht).trans (by norm_num))

/-! ### The snap test (R157) -/

/-- The snap test on the rounded gap. Of the whole numbers of units, 2^147 - 2^122 is the least that is rounded up
to 0.25. -/
theorem snaps_rampDelta_iff : snaps (rampDelta c t) = true ↔ |val t - val c| < 2 ^ 147 - 2 ^ 122 := by
  have hdelta : snaps (rampDelta c t) = true ↔ rounded (val t - val c).natAbs 1 < 2 ^ 147 := by
    rw [snaps, absLt, decide_eq_true_iff, val_snap, fabs, rampDelta, fsub, natAbs_val_rnd32 (rampDelta_inDomain hc ht)]
    norm_cast
  rw [hdelta, ← Int.natCast_natAbs]
  have hup : rounded (2 ^ 147 - 2 ^ 122) 1 = 2 ^ 147 := by decide
  have hdown : rounded (2 ^ 147 - 2 ^ 122 - 1) 1 = 2 ^ 147 - 2 ^ 123 := by decide
  by_cases hlt : (val t - val c).natAbs ≤ 2 ^ 147 - 2 ^ 122 - 1
  · have := rounded_mono Nat.one_pos Nat.one_pos (Nat.mul_le_mul_right 1 hlt)
    exact iff_of_true (by omega) (by omega)
  · have hge : 2 ^ 147 - 2 ^ 122 ≤ (val t - val c).natAbs := by omega
    have := rounded_mono Nat.one_pos Nat.one_pos (Nat.mul_le_mul_right 1 hge)
    exact iff_of_false (by omega) (by omega)

/-! ### The step branch (R157, R159) -/

theorem gap_le_of_not_snaps (h : ¬ snaps (rampDelta c t) = true) : 2 ^ 147 - 2 ^ 122 ≤ |val t - val c| :=
  not_lt.mp fun hlt => h ((snaps_rampDelta_iff hc ht).mpr hlt)

/-- The error of the rounded gap. -/
theorem rampDelta_error (h : ¬ snaps (rampDelta c t) = true) :
    2 ^ 24 * |val (rampDelta c t) - (val t - val c)| ≤ |val t - val c| := by
  have hgap := gap_le_of_not_snaps hc ht h
  have herr := val_rnd32_relative_error (rampDelta_inDomain hc ht) (by zify; omega)
  rwa [Nat.cast_one, mul_one] at herr

theorem abs_rampDelta_le (h : ¬ snaps (rampDelta c t) = true) : |val (rampDelta c t)| ≤ 2 ^ 167 := by
  have herr := rampDelta_error hc ht h
  have hgap := abs_gap_le hc ht
  have htri := abs_sub_abs_le_abs_sub (val (rampDelta c t)) (val t - val c)
  linarith

theorem rampQuotient_inDomain (h : ¬ snaps (rampDelta c t) = true) :
    inDomain (val (rampDelta c t) * 2 ^ 149) (5 * 2 ^ 149) = true := by
  refine inDomain_of_le (by positivity) ?_
  rw [abs_mul, abs_of_pos (by positivity : (0 : Int) < 2 ^ 149)]
  have := abs_rampDelta_le hc ht h
  push_cast
  linarith

/-- The error of the rounded fifth of the rounded gap. -/
theorem rampQuotient_error (h : ¬ snaps (rampDelta c t) = true) :
    2 ^ 24 * |5 * val (fdiv (rampDelta c t) Config.rampDiv) - val (rampDelta c t)| ≤ |val (rampDelta c t)| := by
  have hge : 2 ^ 147 ≤ (val (rampDelta c t)).natAbs := by
    rw [snaps, absLt, decide_eq_true_iff, val_snap, fabs] at h
    omega
  have hnormal : 2 ^ 23 * (5 * 2 ^ 149) ≤ (val (rampDelta c t) * 2 ^ 149).natAbs := by
    rw [Int.natAbs_mul, Int.natAbs_pow, show (2 : Int).natAbs = 2 from rfl]
    omega
  have herr := val_rnd32_relative_error (rampQuotient_inDomain hc ht h) hnormal
  rw [fdiv_rampDiv]
  generalize val (rnd32 (val (rampDelta c t) * 2 ^ 149) (5 * 2 ^ 149)) = q at *
  have hscale : q * (5 * 2 ^ 149 : Nat) - val (rampDelta c t) * 2 ^ 149 = (5 * q - val (rampDelta c t)) * 2 ^ 149 := by
    push_cast
    ring
  rw [hscale, abs_mul, abs_mul, abs_of_pos (by positivity : (0 : Int) < 2 ^ 149), ← mul_assoc] at herr
  exact le_of_mul_le_mul_right herr (by positivity)

/-- Two roundings keep a fifth of the gap within 2^-22 of it. -/
theorem rampQuotient_near (h : ¬ snaps (rampDelta c t) = true) :
    2 ^ 22 * |5 * val (fdiv (rampDelta c t) Config.rampDiv) - (val t - val c)| ≤ |val t - val c| := by
  have hdelta := rampDelta_error hc ht h
  have hquot := rampQuotient_error hc ht h
  have htri := abs_sub_abs_le_abs_sub (val (rampDelta c t)) (val t - val c)
  have hsum := abs_sub_le (5 * val (fdiv (rampDelta c t) Config.rampDiv)) (val (rampDelta c t)) (val t - val c)
  have hpos := abs_nonneg (val t - val c)
  linarith

/-- The exact sum lies strictly between the speed and the target, so it is below 65536. -/
theorem abs_rampSum_lt (h : ¬ snaps (rampDelta c t) = true) :
    |val c + val (fdiv (rampDelta c t) Config.rampDiv)| < 2 ^ 165 := by
  have hgap := gap_le_of_not_snaps hc ht h
  have hnear := rampQuotient_near hc ht h
  have hlow := neg_abs_le (5 * val (fdiv (rampDelta c t) Config.rampDiv) - (val t - val c))
  have hhigh := le_abs_self (5 * val (fdiv (rampDelta c t) Config.rampDiv) - (val t - val c))
  obtain ⟨hcl, hch⟩ := abs_le.mp (abs_val_le_of_legal hc)
  obtain ⟨htl, hth⟩ := abs_le.mp (abs_val_le_of_legal ht)
  rw [abs_lt]
  rcases abs_cases (val t - val c) with ⟨habs, -⟩ | ⟨habs, -⟩
  · rw [habs] at hgap hnear
    constructor <;> linarith
  · rw [habs] at hgap hnear
    constructor <;> linarith

theorem rampSum_inDomain (h : ¬ snaps (rampDelta c t) = true) :
    inDomain (val c + val (fdiv (rampDelta c t) Config.rampDiv)) 1 = true :=
  inDomain_of_le Nat.one_pos ((abs_rampSum_lt hc ht h).le.trans (by norm_num))

omit hc ht in
theorem rampTick_of_snaps (h : snaps (rampDelta c t) = true) : rampTick c t = t := if_pos h

omit hc ht in
theorem rampTick_of_not_snaps (h : ¬ snaps (rampDelta c t) = true) :
    rampTick c t = rnd32 (val c + val (fdiv (rampDelta c t) Config.rampDiv)) 1 := if_neg h

/-- What a step of the ramp moves the speed by: a fifth of the gap, up to 2^-22 of the gap and half a unit of the sum,
2^-9. -/
theorem rampTick_step (h : ¬ snaps (rampDelta c t) = true) :
    2 ^ 22 * |5 * (val (rampTick c t) - val c) - (val t - val c)| ≤ |val t - val c| + 5 * 2 ^ 162 := by
  have hnear := rampQuotient_near hc ht h
  have hsum := abs_rampSum_lt hc ht h
  have herr := val_rnd32_error (rampSum_inDomain hc ht h)
  rw [rampTick_of_not_snaps h]
  generalize val (fdiv (rampDelta c t) Config.rampDiv) = q at *
  generalize val (rnd32 (val c + q) 1) = r at *
  have hexp : rndExp (val c + q).natAbs 1 ≤ 141 := rndExp_le_of_lt (by zify; simpa using hsum)
  have hunit : (2 : Int) ^ rndExp (val c + q).natAbs 1 ≤ 2 ^ 141 := pow_le_pow_right₀ one_le_two hexp
  rw [Nat.cast_one, mul_one, one_mul] at herr
  have htri : |5 * (r - val c) - (val t - val c)| ≤ 5 * |r - (val c + q)| + |5 * q - (val t - val c)| := by
    have := abs_add_le (5 * (r - (val c + q))) (5 * q - (val t - val c))
    rw [abs_mul, abs_of_pos (by norm_num : (0 : Int) < 5)] at this
    convert! this using 2
    ring
  linarith

/-! ### Approach without overshoot (R159) -/

/-- A step goes from the speed towards the target, and neither stays nor arrives. -/
theorem rampTick_between (h : ¬ snaps (rampDelta c t) = true) :
    (val c < val t ∧ val c < val (rampTick c t) ∧ val (rampTick c t) < val t) ∨
    (val t < val c ∧ val t < val (rampTick c t) ∧ val (rampTick c t) < val c) := by
  have hgap := gap_le_of_not_snaps hc ht h
  have hstep := rampTick_step hc ht h
  have hlow := neg_abs_le (5 * (val (rampTick c t) - val c) - (val t - val c))
  have hhigh := le_abs_self (5 * (val (rampTick c t) - val c) - (val t - val c))
  rcases abs_cases (val t - val c) with ⟨habs, -⟩ | ⟨habs, -⟩
  · rw [habs] at hgap hstep
    exact .inl ⟨by linarith, by linarith, by linarith⟩
  · rw [habs] at hgap hstep
    exact .inr ⟨by linarith, by linarith, by linarith⟩

/-- A tick stays between the speed and the target. -/
theorem val_rampTick_mem :
    min (val c) (val t) ≤ val (rampTick c t) ∧ val (rampTick c t) ≤ max (val c) (val t) := by
  by_cases h : snaps (rampDelta c t) = true
  · rw [rampTick_of_snaps h]
    omega
  · have := rampTick_between hc ht h
    omega

theorem rampTick_legal : legalSpeed (rampTick c t) = true := by
  by_cases h : snaps (rampDelta c t) = true
  · exact (rampTick_of_snaps h).symm ▸ ht
  · have hmem := val_rampTick_mem hc ht
    obtain ⟨hcl, hch⟩ := abs_le.mp (abs_val_le_of_legal hc)
    obtain ⟨htl, hth⟩ := abs_le.mp (abs_val_le_of_legal ht)
    rw [rampTick_of_not_snaps h] at hmem ⊢
    exact legalSpeed_rnd32 (rampSum_inDomain hc ht h) (abs_le.mpr (by omega))

/-- The tick lands on the target exactly when it snaps. -/
theorem val_rampTick_eq_iff : val (rampTick c t) = val t ↔ snaps (rampDelta c t) = true := by
  refine ⟨fun heq => by_contra fun h => ?_, fun h => by rw [rampTick_of_snaps h]⟩
  have := rampTick_between hc ht h
  omega

/-- With no gap the tick snaps. -/
theorem snaps_of_val_eq (h : val c = val t) : snaps (rampDelta c t) = true := by
  rw [snaps_rampDelta_iff hc ht, h, sub_self, abs_zero]
  norm_num

/-! ### Settling (R160) -/

/-- A tick leaves at most four fifths of the gap and the rounding errors. -/
theorem rampTick_gap : 5 * |val t - val (rampTick c t)| ≤ 4 * |val t - val c| + 21 * 2 ^ 140 := by
  by_cases h : snaps (rampDelta c t) = true
  · rw [rampTick_of_snaps h, sub_self, abs_zero]
    positivity
  · have hgap := abs_gap_le hc ht
    have hstep := rampTick_step hc ht h
    have hlow := neg_abs_le (5 * (val (rampTick c t) - val c) - (val t - val c))
    have hhigh := le_abs_self (5 * (val (rampTick c t) - val c) - (val t - val c))
    rcases rampTick_between hc ht h with ⟨hct, -, hlt⟩ | ⟨htc, hlt, -⟩
    · rw [abs_of_pos (sub_pos.mpr hlt)]
      rw [abs_of_pos (sub_pos.mpr hct)] at *
      linarith
    · rw [abs_of_neg (sub_neg.mpr hlt)]
      rw [abs_of_neg (sub_neg.mpr htc)] at *
      linarith

/-- Some ticks towards a constant target. -/
theorem rampTick_iterate (k : Nat) : legalSpeed ((fun x => rampTick x t)^[k] c) = true ∧
    5 ^ k * (|val t - val ((fun x => rampTick x t)^[k] c)| - 21 * 2 ^ 140) ≤
      4 ^ k * (|val t - val c| - 21 * 2 ^ 140) := by
  induction k with
  | zero => exact ⟨hc, by simp⟩
  | succ k ih =>
    obtain ⟨hlegal, hgap⟩ := ih
    rw [Function.iterate_succ_apply']
    generalize (fun x => rampTick x t)^[k] c = x at *
    refine ⟨rampTick_legal hlegal ht, ?_⟩
    have htick := rampTick_gap hlegal ht
    calc 5 ^ (k + 1) * (|val t - val (rampTick x t)| - 21 * 2 ^ 140)
      _ = 5 ^ k * (5 * |val t - val (rampTick x t)| - 105 * 2 ^ 140) := by rw [pow_succ]; ring
      _ ≤ 5 ^ k * (4 * (|val t - val x| - 21 * 2 ^ 140)) := by gcongr; linarith
      _ = 4 * (5 ^ k * (|val t - val x| - 21 * 2 ^ 140)) := by ring
      _ ≤ 4 * (4 ^ k * (|val t - val c| - 21 * 2 ^ 140)) := by gcongr
      _ = 4 ^ (k + 1) * (|val t - val c| - 21 * 2 ^ 140) := by rw [pow_succ]; ring

/-- Sixty ticks bring the largest gap below the snap threshold. -/
theorem rampTick_settled : (fun x => rampTick x t)^[61] c = t := by
  obtain ⟨hlegal, hgap⟩ := rampTick_iterate hc ht 60
  have hstart := abs_gap_le hc ht
  rw [Function.iterate_succ_apply']
  refine rampTick_of_snaps ((snaps_rampDelta_iff hlegal ht).mpr ?_)
  generalize |val t - val ((fun x => rampTick x t)^[60] c)| = g at *
  norm_num at hgap hstart ⊢
  linarith

/-! ### The recurrence of R157 on rationals -/

theorem toRat_rampDelta : toRat (rampDelta c t) = specRnd32 (toRat t - toRat c) := by
  rw [rampDelta, fsub, toRat_rnd32 (rampDelta_inDomain hc ht), toRat, toRat]
  push_cast
  congr 1
  ring

theorem toRat_rampQuotient (h : ¬ snaps (rampDelta c t) = true) :
    toRat (fdiv (rampDelta c t) Config.rampDiv) = specRnd32 (toRat (rampDelta c t) / 5) := by
  rw [fdiv_rampDiv, toRat_rnd32 (rampQuotient_inDomain hc ht h), toRat]
  push_cast
  congr 1
  ring

theorem toRat_rampTick_of_not_snaps (h : ¬ snaps (rampDelta c t) = true) :
    toRat (rampTick c t) = specRnd32 (toRat c + toRat (fdiv (rampDelta c t) Config.rampDiv)) := by
  rw [rampTick_of_not_snaps h, toRat_rnd32 (rampSum_inDomain hc ht h), toRat, toRat]
  push_cast
  congr 1
  ring

omit hc ht in
theorem snaps_iff_toRat (p : Word) : snaps p = true ↔ |toRat p| < 1 / 4 := by
  have hquarter : (1 / 4 : Rat) * 2 ^ 149 = 2 ^ 147 := by norm_num
  rw [snaps, absLt, decide_eq_true_iff, val_snap, fabs, toRat, abs_div,
    abs_of_pos (by positivity : (0 : Rat) < 2 ^ 149), div_lt_iff₀ (by positivity), hquarter, Int.natCast_natAbs]
  exact_mod_cast Iff.rfl

theorem toRat_rampTick : toRat (rampTick c t) = specRampTick (toRat c) (toRat t) := by
  unfold specRampTick
  dsimp only
  rw [← toRat_rampDelta hc ht, if_congr (snaps_iff_toRat _).symm rfl rfl]
  split
  · rw [rampTick_of_snaps ‹_›]
  · rw [toRat_rampTick_of_not_snaps hc ht ‹_›, toRat_rampQuotient hc ht ‹_›]

end Tick

/-- Settles O28: each operation is inside the domain of the rounding, which is that of R152. -/
theorem rampTickIsTheRoundedRecurrence : Obligations.RampTickIsTheRoundedRecurrence :=
  fun _ _ hc ht => ⟨toRat_rampTick hc ht, rampTick_of_snaps, ((legalSpeed_iff _).mp (rampTick_legal hc ht)).2.2⟩

/-- Settles O29: the test in units, as rational numbers. -/
theorem snapTestOnTheRoundedGap : Obligations.SnapTestOnTheRoundedGap := by
  intro c t hc ht
  have hgap : |toRat t - toRat c| = (|val t - val c| : Int) / (2 ^ 149 : Rat) := by
    rw [toRat, toRat, ← sub_div, abs_div, abs_of_pos (by positivity : (0 : Rat) < 2 ^ 149)]
    push_cast
    rfl
  have hbound : (1 / 4 - 1 / 2 ^ 27 : Rat) * 2 ^ 149 = (2 ^ 147 - 2 ^ 122 : Int) := by norm_num
  rw [snaps_rampDelta_iff hc ht, hgap, div_lt_iff₀ (by positivity), hbound, Int.cast_lt]

/-- Settles O36: a tick that does not snap ends strictly between the speed and the target. -/
theorem rampApproachesAndNeverOvershoots : Obligations.RampApproachesAndNeverOvershoots := by
  intro c t hc ht
  have hiff := val_rampTick_eq_iff hc ht
  by_cases h : snaps (rampDelta c t) = true
  · have heq := hiff.mpr h
    exact ⟨fun _ => by omega, fun _ => by omega, fun _ => heq, hiff⟩
  · have hbetween := rampTick_between hc ht h
    exact ⟨fun _ => by omega, fun _ => by omega, fun heq => absurd (snaps_of_val_eq hc ht heq) h, hiff⟩

/-- Settles O37: 61 ticks end on the target, and with no gap every further tick snaps. -/
theorem rampSettlesWithinSixtyOneTicks : Obligations.RampSettlesWithinSixtyOneTicks := by
  intro c t k hc ht hk
  obtain ⟨j, rfl⟩ := Nat.exists_eq_add_of_le' hk
  have hfixed : rampTick t t = t := rampTick_of_snaps (snaps_of_val_eq ht ht rfl)
  rw [Function.iterate_add_apply, rampTick_settled hc ht]
  exact Function.iterate_fixed (f := fun x => rampTick x t) hfixed j

end Sys2Proof.Machine
end

section
/-! SUPPORT. The threshold and the step duration (42_motion.md R156, R158): above 0.5 rev/s the duration is the
truncated quotient of the rule, below 2000000 microseconds. -/

namespace Sys2Proof.Machine

open F32

/-! ### The threshold (R156) -/

@[simp] theorem val_vMin : val Config.vMin = 2 ^ 148 := by decide
@[simp] theorem val_usPerS : val Config.usPerS = 1000000 * 2 ^ 149 := by decide

theorem half_lt_toRat_iff (p : Word) : 1 / 2 < toRat p ↔ 2 ^ 148 < val p := by
  have hhalf : (1 / 2 : Rat) * 2 ^ 149 = 2 ^ 148 := by norm_num
  rw [toRat, lt_div_iff₀ (by positivity), hhalf]
  exact_mod_cast Iff.rfl

theorem toRat_le_half_iff (p : Word) : toRat p ≤ 1 / 2 ↔ val p ≤ 2 ^ 148 := by
  rw [← not_lt, half_lt_toRat_iff, not_lt]

theorem aboveThreshold_iff (p : Word) : aboveThreshold p = true ↔ 1 / 2 < toRat p := by
  rw [half_lt_toRat_iff, aboveThreshold, fgt, decide_eq_true_iff, val_vMin]

/-- The least value above 0.5 is 0.5 + 2^-24. -/
theorem val_ge_of_gt_half {p : Word} (hf : finite p = true) (h : 2 ^ 148 < val p) : 2 ^ 148 + 2 ^ 125 ≤ val p := by
  obtain ⟨m, k, hm, -, hmag, -⟩ := mag_parts p
  have hval : val p = mag p := by
    rw [val_of_finite hf] at h ⊢
    split at h
    · omega
    · rw [if_neg ‹_›]
  have hgt : 2 ^ 148 < m * 2 ^ k := by omega
  rcases Nat.lt_or_ge k 125 with hk | hk
  · have hle : m * 2 ^ k ≤ 2 ^ 24 * 2 ^ 124 := Nat.mul_le_mul hm.le (Nat.pow_le_pow_right two_pos (by omega))
    omega
  · obtain ⟨j, rfl⟩ := Nat.exists_eq_add_of_le hk
    have hsplit : m * 2 ^ (125 + j) = m * 2 ^ j * 2 ^ 125 := by
      rw [pow_add]
      ring
    omega

/-! ### The duration (R158) -/

/-- Every `SPR` is representable (R151). -/
theorem val_ofNat {n : Nat} (h : n < 2 ^ 16) : val (F32.ofNat n) = n * 2 ^ 149 := by
  have hd : inDomain ((n : Int) * 2 ^ 149) 1 = true := by
    refine inDomain_of_le Nat.one_pos ?_
    rw [abs_of_nonneg (by positivity)]
    push_cast
    omega
  rw [F32.ofNat, val_rnd32_of_nonneg hd (by positivity), Int.natAbs_mul, Int.natAbs_natCast, Int.natAbs_pow,
    show (2 : Int).natAbs = 2 from rfl, rounded_of_lt 149 (by omega)]
  push_cast
  rfl

/-- The steps per second: `fmul(c, SPR)` of R158. -/
theorem fmul_ofNat (c : Word) {n : Nat} (h : n < 2 ^ 16) :
    fmul c (F32.ofNat n) = rnd32 (val c * (n * 2 ^ 149)) (2 ^ 149) := by
  rw [fmul, val_ofNat h]

section Duration
variable {c : Word} {n : Nat} (hc : legalSpeed c = true) (habove : 2 ^ 148 < val c) (hn : 1 ≤ n) (hlt : n < 2 ^ 16)
include hc habove hlt

theorem fmul_inDomain : inDomain (val c * (n * 2 ^ 149)) (2 ^ 149) = true := by
  refine inDomain_of_le (by positivity) ?_
  have hcle : val c ≤ 2 ^ 165 := (abs_le.mp (abs_val_le_of_legal hc)).2
  have hnle : (n : Int) ≤ 2 ^ 16 := by exact_mod_cast hlt.le
  have hcpos : 0 ≤ val c := by omega
  rw [abs_of_nonneg (by positivity)]
  calc val c * (n * 2 ^ 149) ≤ 2 ^ 165 * (2 ^ 16 * 2 ^ 149) := by gcongr
    _ ≤ 2 ^ 200 * ((2 ^ 149 : Nat) : Int) := by norm_num

theorem toRat_fmul : toRat (fmul c (F32.ofNat n)) = specRnd32 (toRat c * n) := by
  rw [fmul_ofNat c hlt, toRat_rnd32 (fmul_inDomain hc habove hlt), toRat]
  push_cast
  congr 1
  field_simp

include hn

/-- The steps per second are no fewer than the revolutions per second. -/
theorem val_le_val_fmul : val c ≤ val (fmul c (F32.ofNat n)) := by
  obtain ⟨hf, hle, hz⟩ := (legalSpeed_iff c).mp hc
  have hd : inDomain (val c) 1 = true := inDomain_of_le Nat.one_pos (hle.trans (by norm_num))
  have hmono := val_rnd32_mono hd (fmul_inDomain hc habove hlt) (by
    have hn' : (1 : Int) ≤ n := by exact_mod_cast hn
    push_cast
    nlinarith)
  rwa [rnd32_val hf hz hd, ← fmul_ofNat c hlt] at hmono

theorem val_fmul_ge : 2 ^ 148 + 2 ^ 125 ≤ val (fmul c (F32.ofNat n)) :=
  (val_ge_of_gt_half ((legalSpeed_iff c).mp hc).1 habove).trans (val_le_val_fmul hc habove hn hlt)

end Duration

/-- A million microseconds, divided by a positive value. -/
theorem fdiv_usPerS {p : Word} (h : 0 < val p) :
    fdiv Config.usPerS p = rnd32 (1000000 * 2 ^ 149 * 2 ^ 149) (val p).natAbs := by
  rw [fdiv, val_usPerS, Int.sign_eq_one_of_pos h, mul_one]

section Quotient
variable {p : Word} (h : 2 ^ 148 + 2 ^ 125 ≤ val p)
include h

theorem usPerS_inDomain : inDomain (1000000 * 2 ^ 149 * 2 ^ 149) (val p).natAbs = true := by
  refine inDomain_of_le (by omega) ?_
  rw [Int.natCast_natAbs, abs_of_nonneg (by omega : 0 ≤ val p), abs_of_nonneg (by positivity)]
  omega

theorem toRat_fdiv_usPerS : toRat (fdiv Config.usPerS p) = specRnd32 (1000000 / toRat p) := by
  have hpos : 0 < val p := by omega
  have hne : (val p : Rat) ≠ 0 := by exact_mod_cast hpos.ne'
  rw [fdiv_usPerS hpos, toRat_rnd32 (usPerS_inDomain h), toRat, Nat.cast_natAbs, abs_of_pos hpos,
    Int.cast_mul, Int.cast_mul, Int.cast_pow, Int.cast_ofNat, Int.cast_ofNat]
  congr 1
  field_simp

/-- The quotient is not negative and below 2000000: at the least value of the divisor it is 1999999.75. -/
theorem val_fdiv_usPerS_bounds :
    0 ≤ val (fdiv Config.usPerS p) ∧ val (fdiv Config.usPerS p) < 2000000 * 2 ^ 149 := by
  have hpos : 0 < val p := by omega
  rw [fdiv_usPerS hpos, val_rnd32_of_nonneg (usPerS_inDomain h) (by positivity)]
  have hleast : rounded (1000000 * 2 ^ 149 * 2 ^ 149) (2 ^ 148 + 2 ^ 125) < 2000000 * 2 ^ 149 := by decide
  have hmono := rounded_mono (n := 1000000 * 2 ^ 149 * 2 ^ 149) (m := 1000000 * 2 ^ 149 * 2 ^ 149)
    (d := (val p).natAbs) (e := 2 ^ 148 + 2 ^ 125) (by omega) (by positivity) (by gcongr; omega)
  exact ⟨by positivity, by exact_mod_cast hmono.trans_lt hleast⟩

end Quotient

theorem trunc_toNat {q : Word} (h0 : 0 ≤ val q) (hlt : val q < 2000000 * 2 ^ 149) :
    ((trunc q).toNat : Int) = val q / 2 ^ 149 := by
  rw [trunc, BitVec.toNat_ofNat]
  omega

theorem floor_toRat (q : Word) : ⌊toRat q⌋ = val q / 2 ^ 149 := by
  have := Rat.floor_intCast_div_natCast (val q) (2 ^ 149)
  push_cast at this
  exact this

/-- Settles O30: both roundings are inside their domain, and the duration is longest at the least speed. -/
theorem stepDurationIsTheTruncatedQuotient : Obligations.StepDurationIsTheTruncatedQuotient := by
  intro c spr hc habove hspr
  rw [half_lt_toRat_iff] at habove
  have hge := val_fmul_ge hc habove hspr spr.isLt
  obtain ⟨h0, hlt⟩ := val_fdiv_usPerS_bounds hge
  have htrunc : ((stepDuration c spr).toNat : Int) = _ := trunc_toNat h0 hlt
  refine ⟨?_, by omega⟩
  rw [htrunc, specStepDuration, ← toRat_fmul hc habove spr.isLt, ← toRat_fdiv_usPerS hge, floor_toRat]

end Sys2Proof.Machine
end

section
/-! SUPPORT. The commands of the Motion Controller (42_motion.md R155, R156, R161, R162): which targets `SETTGT`
accepts, what `MOVE` does on either side of the threshold, and that no step takes a speed out of its range. -/

namespace Sys2Proof.Machine

open F32

/-! ### Which targets are accepted (R155) -/

theorem targetRefused_iff (p : Word) :
    targetRefused p = true ↔ p.extractLsb' 23 8 = 0xFF#8 ∨ 0x47800000 < (p.extractLsb' 0 31).toNat := by
  rw [targetRefused, Bool.or_eq_true, beq_iff_eq, decide_eq_true_iff]
  rfl

theorem finite_iff (p : Word) : finite p = true ↔ p.extractLsb' 23 8 ≠ 0xFF#8 := by
  rw [finite, bne_iff_ne, expo, Ne, Ne, ← BitVec.toNat_inj]
  rfl

/-- Pattern order is value order, at 65536.0. -/
theorem mag_le_iff (p : Word) : mag p ≤ 65536 * 2 ^ 149 ↔ (p.extractLsb' 0 31).toNat ≤ 0x47800000 := by
  obtain ⟨m, k, hm, hk, hmag, hp⟩ := mag_parts p
  rw [hmag, BitVec.extractLsb'_toNat, Nat.shiftRight_zero, hp]
  rcases lt_trichotomy k 142 with hlt | rfl | hgt
  · have hle : m * 2 ^ k ≤ 2 ^ 24 * 2 ^ 141 := Nat.mul_le_mul hm.le (Nat.pow_le_pow_right two_pos (by omega))
    exact iff_of_true (by omega) (by omega)
  · omega
  · have hge : 2 ^ 23 * 2 ^ 143 ≤ m * 2 ^ k := Nat.mul_le_mul (hk (by omega)) (Nat.pow_le_pow_right two_pos hgt)
    have := hk (by omega)
    exact iff_of_false (by omega) (by omega)

theorem targetRefused_eq_false_iff (p : Word) :
    targetRefused p = false ↔ finite p = true ∧ (val p).natAbs ≤ 65536 * 2 ^ 149 := by
  rw [← Bool.not_eq_true, targetRefused_iff, not_or, not_lt, ← mag_le_iff, ← Ne, ← finite_iff]
  exact and_congr_right fun hf => by rw [natAbs_val hf]

theorem targetStored_legal {p : Word} (h : targetRefused p = false) : legalSpeed (targetStored p) = true := by
  obtain ⟨hf, hle⟩ := (targetRefused_eq_false_iff p).mp h
  unfold targetStored
  split
  · decide
  · rw [legalSpeed, hf, decide_eq_true hle]
    simpa using ‹_›

/-- Settles O25: the two tests on the bits are finiteness and the bound on the magnitude. -/
theorem targetAcceptedExactlyWhenInRange : Obligations.TargetAcceptedExactlyWhenInRange :=
  fun p => ⟨targetRefused_eq_false_iff p, targetStored_legal⟩

/-! ### `SETTGT` (R155) -/

theorem exec_setTgt_of_refused {p : Word} {s : State} (hq : s.env.quiet = true) (h : targetRefused p = true) :
    exec (.setTgt p) s = .next ((s.withEnv s.env.pass).answer ⟨.badOperand, 0#32⟩) := by
  rw [exec, execSetTgt, if_pos h]
  exact State.respond_outcome_of_quiet _ _ hq

theorem exec_setTgt_of_accepted {p : Word} {s : State} (hq : s.env.quiet = true) (h : ¬ targetRefused p = true) :
    exec (.setTgt p) s =
      .next (({ s with tgt := targetStored p }.withEnv s.env.pass.pass).answer ⟨.ok, 0#32⟩) := by
  rw [exec, execSetTgt, if_neg h, State.gap_quiet hq, Progress.andThen_running]
  exact State.respond_outcome_of_quiet (s := { s.withEnv s.env.pass with tgt := targetStored p }) _ _
    (Env.pass_quiet hq)

/-- Settles O24: the refusal is its response alone, the acceptance one gap, the target and the response. -/
theorem setTgtRecordsOrRefuses : Obligations.SetTgtRecordsOrRefuses := by
  refine ⟨fun w hw => decode_of_opField hw, fun p s hq => ⟨fun h => ?_, fun hexp hle => ?_⟩⟩
  · exact exec_setTgt_of_refused hq ((targetRefused_iff p).mpr h)
  · have haccepted : ¬ targetRefused p = true := by
      rw [targetRefused_iff, not_or, not_lt]
      exact ⟨hexp, hle⟩
    exact exec_setTgt_of_accepted hq haccepted

/-! ### `MOVE` (R156) -/

/-- At or below the threshold `MOVE` is a gap, the ramp tick to the speed `c`, and the response. -/
theorem exec_move_of_below {s : State} {c : Word} (n : Nat) (hq : s.env.quiet = true)
    (hc : rampTick s.cur s.tgt = c) (hbelow : toRat c ≤ 1 / 2) :
    exec (.move n) s = .next { s with
      cur := c, env := s.env.pass.pass, phase := .idle, rsp := some ⟨.ok, 0#32⟩
      obs := s.obs ++ [.response ⟨.ok, 0#32⟩] } := by
  have hoff : ¬ aboveThreshold c = true := mt (aboveThreshold_iff c).mp (not_lt.mpr hbelow)
  rw [exec, execMove, State.gap_quiet hq, Progress.andThen_running]
  dsimp only [State.withEnv]
  rw [hc, if_neg hoff]
  exact State.respond_outcome_of_quiet (s := { s with cur := c, env := s.env.pass }) _ _ (Env.pass_quiet hq)

/-- Above the threshold `MOVE` is a gap, the ramp tick to the speed `c`, a train of `n` pulses of its one duration `d`,
and the response. -/
theorem exec_move_of_above {s : State} {c d : Word} (n : Nat) (hq : s.env.quiet = true)
    (hc : rampTick s.cur s.tgt = c) (habove : 1 / 2 < toRat c) (hd : stepDuration c s.params.spr = d) :
    ∃ ps : List (Word × Word), ∃ w : Work, ∃ e : Env,
      exec (.move n) s = .next { s with
        cur := c, dur := if n = 0 then s.dur else d, pinStep := if n = 0 then s.pinStep else false
        work := w, env := e, phase := .idle, rsp := some ⟨.ok, BitVec.ofNat 32 n⟩
        obs := s.obs ++ pulseTrain ps ++ [.response ⟨.ok, BitVec.ofNat 32 n⟩] } ∧
      ps.length = n ∧ (∀ p ∈ ps, d.toNat / 2 ≤ p.2.toNat) ∧ s.env.time + n * d.toNat ≤ e.time ∧ s.env.Later e := by
  obtain ⟨t, ht⟩ := State.pulses_quiet d n
    (s := { s.withEnv s.env.pass with cur := c, work := { s.work with nleft := wordOfU n } }) (Env.pass_quiet hq)
  obtain ⟨ps, w, e, rfl, hlen, hhigh, htime, -, -, hafter⟩ := State.pulses_running ht
  have hlater : s.env.Later e := (Env.later_pass s.env).trans hafter.later
  refine ⟨ps, w, e.pass, ?_, hlen, fun p hp => ?_, ?_, hlater.trans (Env.later_pass e)⟩
  · exact exec_move_of_pulses (State.gap_quiet hq) hc ((aboveThreshold_iff c).mpr habove) hd ht
      (Env.struck_of_quiet (hlater.quiet hq))
  · rw [← half_toNat]
    exact BitVec.le_def.mp (hhigh p hp)
  · exact ((Nat.add_le_add_right (Env.after_pass s.env).time _).trans htime).trans (Env.after_pass e).time

/-- Settles O26: on either side of the threshold. -/
theorem movePulsesOnlyAboveTheThreshold : Obligations.MovePulsesOnlyAboveTheThreshold :=
  ⟨fun _ hw => decode_of_opField hw, fun n _ _ hq => ⟨exec_move_of_below n hq rfl,
    fun habove => exec_move_of_above n hq rfl habove rfl⟩⟩

/-! ### The threshold over a ramp (R162) -/

theorem pinEvents_pulseTrain_length (ps : List (Word × Word)) : (pinEvents (pulseTrain ps)).length = 2 * ps.length := by
  induction ps with
  | nil => rfl
  | cons p ps ih =>
    have hcons : pulseTrain (p :: ps) = pulseTrain [p] ++ pulseTrain ps := rfl
    have htwo : (pinEvents (pulseTrain [p])).length = 2 := rfl
    rw [hcons, pinEvents_append, List.length_append, htwo, ih, List.length_cons]
    omega

/-- Settles O39: the tick stays between the speed and the target, so on their side of the threshold. -/
theorem thresholdGatesAWholeRamp : Obligations.ThresholdGatesAWholeRamp := by
  intro n s _ hq hs
  obtain ⟨hlow, hhigh⟩ := val_rampTick_mem hs.cur hs.tgt
  generalize hspeed : rampTick s.cur s.tgt = c at *
  refine ⟨fun ht hc => ?_, fun ht hc => ?_⟩
  · rw [toRat_le_half_iff] at ht hc
    have hbelow : toRat c ≤ 1 / 2 := (toRat_le_half_iff c).mpr (by omega)
    refine ⟨_, exec_move_of_below n hq hspeed hbelow, rfl, ?_, hbelow⟩
    simp [pinEvents]
  · rw [half_lt_toRat_iff] at ht hc
    have habove : 1 / 2 < toRat c := (half_lt_toRat_iff c).mpr (by omega)
    obtain ⟨ps, w, e, hx, hlen, -⟩ := exec_move_of_above n hq hspeed habove rfl
    refine ⟨_, hx, rfl, ?_, habove⟩
    rw [pinEvents_append, pinEvents_append, List.length_append, List.length_append, pinEvents_pulseTrain_length, hlen]
    rfl

/-! ### Both speeds stay in range (R161) -/

/-- The rule speaks of the two speeds only. -/
theorem State.SpeedRule.congr {s t : State} (h : s.SpeedRule) (hc : t.cur = s.cur) (ht : t.tgt = s.tgt) :
    t.SpeedRule := ⟨hc ▸ h.cur, ht ▸ h.tgt⟩

theorem State.blockReset_speedRule (s : State) : s.blockReset.SpeedRule :=
  have hzero : legalSpeed 0#32 = true := by decide
  ⟨hzero, hzero⟩

theorem Answered.speedRule {s t : State} (ha : Answered s t) (h : s.SpeedRule) : t.SpeedRule := by
  obtain ⟨r, e, os, rfl⟩ := ha
  exact h.congr rfl rfl

/-- Only `SETTGT` and the ramp tick write a speed, and both write a legal one. -/
theorem Effect.speedRule {i : Instr} {s t : State} (he : Effect i s t) (h : s.SpeedRule) : t.SpeedRule := by
  cases i with
  | reserved0 | reservedA | reservedB | reservedC | reservedD | reservedE | reservedF | getEn | rdReg _ =>
    exact Answered.speedRule he h
  | setEn _ | setDir _ => exact Answered.speedRule he (h.congr rfl rfl)
  | setTgt p =>
    refine Answered.speedRule he ?_
    cases hr : targetRefused p with
    | true => exact h
    | false =>
      have hstored := targetStored_legal hr
      exact ⟨h.cur, hstored⟩
  | move n =>
    obtain ⟨d, l, w, he⟩ := he
    have hlegal := rampTick_legal h.cur h.tgt
    generalize rampTick s.cur s.tgt = c at *
    exact he.speedRule ⟨hlegal, h.tgt⟩
  | step u =>
    obtain ⟨w, he⟩ := he
    exact he.speedRule (h.congr rfl rfl)
  | hasNext =>
    obtain ⟨u, ⟨-, hd⟩ | ⟨-, rfl⟩, he⟩ := he
    · obtain ⟨taken, m, w, e, k, rfl, -⟩ := State.drainLoop_running hd
      exact he.speedRule (h.congr rfl rfl)
    · exact he.speedRule h
  | getNext =>
    refine Answered.speedRule he ?_
    split
    · exact h
    · exact h.congr rfl rfl

theorem exec_speedRule {i : Instr} {s t : State} (hx : exec i s = .next t) (h : s.SpeedRule) : t.SpeedRule := by
  rcases exec_cases hx with he | ⟨hreset, -⟩
  · exact he.speedRule h
  · exact hreset ▸ t.blockReset_speedRule

/-- Settles O38: reset leaves both speeds 0, a step without a command leaves them alone, and every command keeps them
in range. -/
theorem speedsStayInRange : Obligations.SpeedsStayInRange := by
  refine ⟨State.reset.blockReset_speedRule, fun s t h hs => ?_⟩
  rcases step_cases hs with ⟨-, rfl⟩ | ⟨-, -, -, rfl⟩ | ⟨-, -, rfl⟩ | ⟨w, -, -, -, hx⟩
  · exact State.blockReset_speedRule _
  · exact h.congr rfl rfl
  · exact h.congr rfl rfl
  · exact exec_speedRule hx (h.congr rfl rfl)

end Sys2Proof.Machine
end

section
/-! SUPPORT. The status window and the reserved opcodes: what each bit of the six words is, what `RDREG` answers, and
which words decode to a command that answers `ILLEGAL_OP` (43_rdreg.md R180 to R182). -/

namespace Sys2Proof.Machine

/-! ### The words of the status window (R181) -/

/-- The bits of `SR_FLAGS`, from the least significant. -/
theorem flagsWord_bits (en pinEn pinDir pinStep : Bool) :
    (flagsWord en pinEn pinDir pinStep).getLsbD 0 = en ∧ (flagsWord en pinEn pinDir pinStep).getLsbD 1 = pinEn ∧
      (flagsWord en pinEn pinDir pinStep).getLsbD 2 = pinDir ∧
      (flagsWord en pinEn pinDir pinStep).getLsbD 3 = pinStep ∧
      (flagsWord en pinEn pinDir pinStep).extractLsb' 4 28 = 0#28 := by
  revert en pinEn pinDir pinStep
  decide

/-- Between commands `SR_FLAGS` shows the enable pin as the complement of the flag, and the step pin low. -/
theorem State.IdleRule.flagsWord_mirror {s : State} (h : s.IdleRule) :
    (flagsWord s.en s.pinEn s.pinDir s.pinStep).getLsbD 1 =
        !(flagsWord s.en s.pinEn s.pinDir s.pinStep).getLsbD 0 ∧
      (flagsWord s.en s.pinEn s.pinDir s.pinStep).getLsbD 3 = false := by
  obtain ⟨hen, hpinEn, -, hpinStep, -⟩ := flagsWord_bits s.en s.pinEn s.pinDir s.pinStep
  rw [hen, hpinEn, hpinStep]
  exact ⟨h.mirror, h.stepLow⟩

/-- The fields of `SR_CURSORS`, from the least significant. -/
theorem cursorsWord_fields (rdc flc : Cursor) :
    (cursorsWord rdc flc).extractLsb' 0 6 = rdc ∧ (cursorsWord rdc flc).extractLsb' 6 2 = 0#2 ∧
      (cursorsWord rdc flc).extractLsb' 8 6 = flc ∧ (cursorsWord rdc flc).extractLsb' 14 18 = 0#18 := by
  have hlow {start len : Nat} (h : start + len ≤ 14) :
      (cursorsWord rdc flc).extractLsb' start len = (flc ++ (0#2 ++ rdc)).extractLsb' start len :=
    BitVec.extractLsb'_append_eq_of_add_le h
  have hbyte {start len : Nat} (h : start + len ≤ 8) :
      (flc ++ (0#2 ++ rdc)).extractLsb' start len = (0#2 ++ rdc).extractLsb' start len :=
    BitVec.extractLsb'_append_eq_of_add_le h
  refine ⟨?_, ?_, ?_, BitVec.extractLsb'_append_eq_left⟩
  · rw [hlow (by decide), hbyte (by decide)]
    exact BitVec.extractLsb'_append_eq_right
  · rw [hlow (by decide), hbyte (by decide)]
    exact BitVec.extractLsb'_append_eq_left
  · rw [hlow (by decide)]
    exact BitVec.extractLsb'_append_eq_left

/-- `SR_SPR` holds the parameter in its low half. -/
theorem zeroExtend_halves (p : BitVec 16) :
    (p.zeroExtend 32).extractLsb' 0 16 = p ∧ (p.zeroExtend 32).extractLsb' 16 16 = 0#16 := by
  have happend : p.zeroExtend 32 = 0#16 ++ p := BitVec.setWidth_eq_append (by decide)
  rw [happend]
  exact ⟨BitVec.extractLsb'_append_eq_right, BitVec.extractLsb'_append_eq_left⟩

/-! ### `RDREG` (R180) -/

/-- Format `R` reads the low four bits of the command word (30_encoding.md R80, R81). -/
theorem operandR_argField (w : CmdWord) : operandR (argField w) = (w.extractLsb' 0 4).toNat := by
  simp [operandR, argField]

theorem State.statusWord_of_reserved (s : State) {idx : Nat} (h : 6 ≤ idx) : s.statusWord idx = none := by
  obtain ⟨k, rfl⟩ := Nat.exists_eq_add_of_le' h
  rfl

theorem State.statusWord_of_assigned (s : State) {idx : Nat} (h : idx ≤ 5) : ∃ w, s.statusWord idx = some w := by
  match idx with
  | 0 | 1 | 2 | 3 | 4 | 5 => exact ⟨_, rfl⟩
  | _ + 6 => omega

theorem exec_rdReg_of_none {s : State} {idx : Nat} (hq : s.env.quiet = true) (h : s.statusWord idx = none) :
    exec (.rdReg idx) s = .next ((s.withEnv s.env.pass).answer ⟨.badOperand, 0#32⟩) := by
  rw [exec, execRdReg, h]
  exact State.respond_outcome_of_quiet _ _ hq

theorem exec_rdReg_of_some {s : State} {idx : Nat} {w : Word} (hq : s.env.quiet = true)
    (h : s.statusWord idx = some w) :
    exec (.rdReg idx) s = .next ((s.withEnv s.env.pass).answer ⟨.ok, w⟩) := by
  rw [exec, execRdReg, h]
  exact State.respond_outcome_of_quiet _ _ hq

/-- Settles O48: a reserved index selects no word, an assigned one selects its word, and that is the answer. -/
theorem rdRegAnswersTheStatusWindow : Obligations.RdRegAnswersTheStatusWindow := by
  obtain ⟨-, -, -, -, -, -, -, -, -, -, -, hreset⟩ := resetStateHoldsTheSpecsValues
  refine ⟨fun w hw => ?_, fun s hq => ⟨fun idx h => ?_, fun idx h => ?_, hreset⟩⟩
  · rw [decode_of_opField hw, ← operandR_argField]
    rfl
  · exact exec_rdReg_of_none hq (s.statusWord_of_reserved h)
  · obtain ⟨w, hw⟩ := s.statusWord_of_assigned h
    refine ⟨w, exec_rdReg_of_some hq hw, ?_, ?_, ?_, ?_, ?_, ?_⟩ <;> rintro rfl <;> cases hw
    · rfl
    · rfl
    · obtain ⟨hen, hpinEn, hpinDir, hpinStep, hrest⟩ := flagsWord_bits s.en s.pinEn s.pinDir s.pinStep
      exact ⟨hen, hpinEn, hpinDir, hpinStep, hrest, State.IdleRule.flagsWord_mirror⟩
    · exact cursorsWord_fields s.rdc s.flc
    · exact zeroExtend_halves s.params.spr
    · rfl

/-! ### The reserved opcodes (R182) -/

/-- The opcode map, reserved and assigned rows apart (30_encoding.md R83, R84). -/
theorem isReserved_decodeFields (op : Fin 16) (arg : Word) :
    (decodeFields op arg).isReserved = true ↔
      BitVec.ofFin op ∈ [0x0#4, 0xA#4, 0xB#4, 0xC#4, 0xD#4, 0xE#4, 0xF#4] := by
  match op with
  | 0x0 | 0xA | 0xB | 0xC | 0xD | 0xE | 0xF => exact iff_of_true rfl (by decide)
  | 0x1 | 0x2 | 0x3 | 0x4 | 0x5 | 0x6 | 0x7 | 0x8 | 0x9 => exact iff_of_false Bool.false_ne_true (by decide)
  | ⟨_ + 16, h⟩ => exact absurd h (by omega)

theorem exec_of_isReserved {i : Instr} (h : i.isReserved = true) (s : State) : exec i s = s.illegalOp.outcome := by
  cases i with
  | reserved0 | reservedA | reservedB | reservedC | reservedD | reservedE | reservedF => rfl
  | setEn _ | getEn | setDir _ | setTgt _ | move _ | step _ | rdReg _ | hasNext | getNext => cases h

/-- Settles O49: the opcode alone selects a reserved row, and each of the seven is one and the same response. -/
theorem reservedOpcodesAnswerIllegalOp : Obligations.ReservedOpcodesAnswerIllegalOp := by
  refine ⟨fun w => isReserved_decodeFields (opField w).toFin (argField w), fun i s hi hq => ?_⟩
  rw [exec_of_isReserved hi]
  exact State.respond_outcome_of_quiet _ _ hq

end Sys2Proof.Machine
end

section
/-! SUPPORT. Reset, and what holds whenever the sequencer is idle (70_reset_and_hazards.md R210 to R212, R226, R227):
the idle sequencer's pins through every command, and the steps and commands in which reset strikes. -/

namespace Sys2Proof.Machine

/-! ### The pins between commands (R226, 43_rdreg.md R181) -/

theorem State.blockReset_idleRule (s : State) : s.blockReset.IdleRule := ⟨rfl, rfl, rfl⟩

/-- The rule speaks of the phase, two pins and the flag only. -/
theorem State.IdleRule.congr {s t : State} (h : s.IdleRule) (hp : t.phase = s.phase) (hl : t.pinStep = s.pinStep)
    (he : t.pinEn = s.pinEn) (hf : t.en = s.en) : t.IdleRule :=
  ⟨hp.trans h.phase, hl.trans h.stepLow, by rw [he, hf, h.mirror]⟩

/-- The response makes the sequencer idle. -/
theorem Answered.idleRule {s t : State} (ha : Answered s t) (hl : s.pinStep = false) (hm : s.pinEn = !s.en) :
    t.IdleRule := by
  obtain ⟨r, e, os, rfl⟩ := ha
  exact ⟨rfl, hl, hm⟩

theorem Answered.pinStep {s t : State} (ha : Answered s t) : t.pinStep = s.pinStep := by
  obtain ⟨r, e, os, rfl⟩ := ha
  rfl

/-- A train of pulses that begins with the step pin low ends so, even one of no pulses. -/
theorem State.pulses_keeps_stepLow {s : State} (hl : s.pinStep = false) (dur : Word) (n : Nat) :
    (State.pulses dur n s).Does s.env (·.pinStep = false) :=
  .of_part
    (fun h => by
      obtain ⟨ps, w, e, rfl, -, -, -, -, -, he⟩ := State.pulses_running h
      exact ⟨by simp [hl], _, _, he⟩)
    State.pulses_abandoned (State.pulses_quiet dur n)

/-- `MOVE` leaves the step pin low: `Effect` does not say which level the pin has, the loop does (42_motion.md R156). -/
theorem exec_move_keeps_stepLow {n : Nat} {s t : State} (hx : exec (.move n) s = .next t) (hl : s.pinStep = false) :
    t.pinStep = false := by
  have hdoes : t.pinStep = false ∨ (t.blockReset = t ∧ ¬ s.env.quiet = true) := by
    refine Progress.Does.outcome (E := (·.pinStep = false)) (State.gap_andThen_does ?_) hx
    dsimp only
    split
    · refine (State.pulses_keeps_stepLow ?_ ..).andThen fun u hu =>
        Progress.Does.imp (State.respond_does ..) fun t ha => ha.pinStep.trans hu
      exact hl
    · exact Progress.Does.imp (State.respond_does ..) fun t ha => ha.pinStep.trans hl
  rcases hdoes with h | ⟨hreset, -⟩
  · exact h
  · exact hreset ▸ t.blockReset_pinStep

/-- A command that begins with the step pin low and the enable pin the complement of the flag ends so, and idle: only
`SETEN` writes the enable pin and the flag, and every pulse ends with the step pin low. -/
theorem exec_idleRule {i : Instr} {s t : State} (hx : exec i s = .next t) (hl : s.pinStep = false)
    (hm : s.pinEn = !s.en) : t.IdleRule := by
  rcases exec_cases hx with he | ⟨hreset, -⟩
  · cases i with
    | reserved0 | reservedA | reservedB | reservedC | reservedD | reservedE | reservedF | getEn | rdReg _ | setDir _ =>
      exact Answered.idleRule he hl hm
    | setEn b => exact Answered.idleRule he hl (enableLevel_eq_not b)
    | setTgt p =>
      obtain ⟨r, e, os, rfl⟩ := he
      split
      · exact ⟨rfl, hl, hm⟩
      · exact ⟨rfl, hl, hm⟩
    | move n =>
      have hlow := exec_move_keeps_stepLow hx hl
      obtain ⟨d, l, w, he⟩ := he
      exact he.idleRule (he.pinStep ▸ hlow) hm
    | step u =>
      obtain ⟨w, he⟩ := he
      exact he.idleRule rfl hm
    | hasNext =>
      obtain ⟨u, ⟨-, hd⟩ | ⟨-, rfl⟩, he⟩ := he
      · obtain ⟨taken, m, w, e, k, rfl, -⟩ := State.drainLoop_running hd
        exact he.idleRule hl hm
      · exact he.idleRule hl hm
    | getNext =>
      obtain ⟨r, e, os, rfl⟩ := he
      split
      · exact ⟨rfl, hl, hm⟩
      · exact ⟨rfl, hl, hm⟩
  · exact hreset ▸ t.blockReset_idleRule

theorem step_idleRule {s t : State} (hs : step s = .next t) (h : s.IdleRule) : t.IdleRule := by
  rcases step_cases hs with ⟨-, rfl⟩ | ⟨-, -, -, rfl⟩ | ⟨-, -, rfl⟩ | ⟨w, -, -, -, hx⟩
  · exact State.blockReset_idleRule _
  · exact h.congr rfl rfl rfl rfl
  · exact h.congr rfl rfl rfl rfl
  · exact exec_idleRule hx h.stepLow h.mirror

/-! ### The invariant of the idle sequencer (R226) -/

theorem State.ParamRule.congr {s t : State} (h : s.ParamRule) (hp : t.params = s.params) : t.ParamRule :=
  ⟨hp ▸ h.spr, hp ▸ h.tPace⟩

/-- Settles O55: every step keeps each of the four rules. -/
theorem stepKeepsTheIdleInvariant : Obligations.StepKeepsTheIdleInvariant := by
  intro s t h hs
  exact
    { buffer := cursorRuleIsKept.2 s t h.buffer hs
      speeds := speedsStayInRange.2 s t h.speeds hs
      idle := step_idleRule hs h.idle
      params := h.params.congr (parametersNeverChange s t hs) }

/-- Settles O56: the reset state meets each of the four rules. -/
theorem resetStateMeetsTheIdleInvariant : Obligations.ResetStateMeetsTheIdleInvariant where
  buffer := cursorRuleIsKept.1
  speeds := speedsStayInRange.1
  idle := State.reset.blockReset_idleRule
  params := ⟨by decide, by decide⟩

/-! ### How a command ends (R212) -/

/-- The reset state as the spec's reset values around what reset leaves alone. -/
theorem State.eq_reset_of_blockReset {s t : State} {obs : List Obs} (hreset : t.blockReset = t)
    (hp : t.params = s.params) (ho : t.obs = obs) :
    t = { State.reset with params := s.params, env := t.env, obs := obs } := by
  rw [← hp, ← ho]
  exact hreset.symm

/-- Settles O15: a command ends with its one response or in the reset state, and the record until then accounts for
the bytes taken. -/
theorem commandEndsAnsweredOrReset : Obligations.CommandEndsAnsweredOrReset := by
  intro i s t hx
  rcases exec_ended hx with ⟨u, r, ⟨k, os, ho, hr, he⟩, rfl⟩ | ⟨hreset, k, os, ho, hr, he⟩
  · exact ⟨k, os, he, hr, .inl ⟨r, rfl, rfl, by rw [State.answer_obs, ho]⟩⟩
  · exact ⟨k, os, he, hr, .inr (State.eq_reset_of_blockReset hreset (exec_params hx) ho)⟩

/-! ### Steps with and without a reset (R210, R227) -/

/-- The environment after a move that its script gives. -/
theorem Env.pass_of_script {e : Env} {m : EnvMove} {ms : List EnvMove} (h : e.script = m :: ms) :
    e.pass = ⟨e.tq ++ m.arrivals, e.time + m.advance, e.cmds, ms, e.draw + 1⟩ := by
  rw [Env.pass, Env.move_of_script h, h, List.tail_cons]

/-- Settles O11: the script's move is the gap before the word, and the word is then accepted. -/
theorem anyGapAndAnyArrivalsBeforeACommand : Obligations.AnyGapAndAnyArrivalsBeforeACommand := by
  intro s gap bs ms w ws hidle hcmds hscript
  have hport : s.env.cmds.head? = some (some w) := by rw [hcmds, List.head?_cons]
  rw [stepRunsThePresentedCommand s w (Env.struck_of_script hscript) hidle hport, Env.pass_of_script hscript, hcmds,
    List.tail_cons]

/-- Settles O12: a step in which reset strikes is the environment's move and the block's reset, and no more. -/
theorem resetBetweenCommands : Obligations.ResetBetweenCommands := by
  intro s hs
  rw [step, State.offer, if_pos hs]
  rfl

/-! ### A reset in a pulse (R212, 41_pulse.md R135) -/

theorem Env.struck_eq_rst {e : Env} {m : EnvMove} {ms : List EnvMove} (h : e.script = m :: ms) :
    e.struck = m.rst := by
  rw [Env.struck, Env.move_of_script h]

/-- A reset in the first wait of a pulse abandons it with the step pin high, and reset takes the pin low. -/
theorem State.moveStep_of_struck {s : State} (hgap : s.env.struck = false) (hwait : s.env.pass.struck = true)
    (dur : Word) : s.moveStep dur =
      .abandoned (((s.withEnv s.env.pass).pulseHigh dur).withEnv s.env.pass.pass).blockReset := by
  rw [State.moveStep, State.gap_of_not_struck hgap, Progress.andThen_running, State.wait_of_struck hwait,
    Progress.andThen_abandoned]
  rfl

/-- Settles O14: the first move is the gap before the rising edge, the second strikes in the wait after it. -/
theorem resetCutsAPulseInItsHighPhase : Obligations.ResetCutsAPulseInItsHighPhase := by
  intro s m m' ms u hscript hm hm'
  have hgap : s.env.struck = false := (Env.struck_eq_rst hscript).trans hm
  have hnext : s.env.pass.script = m' :: ms := by rw [Env.pass_script, hscript, List.tail_cons]
  have hwait : s.env.pass.struck = true := (Env.struck_eq_rst hnext).trans hm'
  rw [exec, execStep, State.moveStep_of_struck hgap hwait, Progress.andThen_abandoned, Progress.outcome_abandoned]
  rfl

end Sys2Proof.Machine
end
